-- ==== Sys2Proof/Config.lean ====
section
/-! DEFINITION. The parameters of the engine (spec/00_scope.md R5), one named constant each.
The engine has ONE configuration (R1, R5), so each is a number and none is left free: the spec leaves no
value of this hardware open, so the model has no opaque constant.
Widths that Lean carries in a type (`Byte`, `OpWord`, `Table`, `Buffer`) are written there as numerals;
`Sys2Proof.Laws.config_matches_types` ties them to the constants below. -/

namespace Sys2Proof.Config

/-- `TABLE_SIZE`: entries of the permutation table `P` (R5, R10). -/
abbrev tableSize : Nat := 256

/-- `BYTE_W`: width of a table entry, of `s`, of every key, IV, source and keystream byte (R5). -/
abbrev byteW : Nat := 8

/-- `SCHED_ITERS`: steps of one schedule round, whatever the message length (R5, R77). -/
abbrev schedIters : Nat := 768

/-- `SCHED_ROUNDS`: one round with the key, then one with the IV (R5, R78). -/
abbrev schedRounds : Nat := 2

/-- `LEN_MIN`: least legal key or IV length in bytes (R5, R75). -/
abbrev lenMin : Nat := 16

/-- `LEN_MAX`: greatest legal key or IV length in bytes (R5, R75). -/
abbrev lenMax : Nat := 64

/-- `N_INST`: cipher instances one engine holds (R5, R28). -/
abbrev nInst : Nat := 1

/-- `ADDR_W`: width of a host port address (R5, R30). -/
abbrev addrW : Nat := 8

/-- `DATA_W`: width of host port write and read data (R5, R32). -/
abbrev dataW : Nat := 8

/-- `LEN_W`: width of `KLEN`, `VLEN` and `ERRLEN` (R5, R17; assumption log 9). -/
abbrev lenW : Nat := 8

/-- `BUF_SIZE`: bytes of the `KEY` buffer and of the `IV` buffer (R5, R15, R16). -/
abbrev bufSize : Nat := 64

/-- `OPW_W`: width of a host operation word (R5, R50). -/
abbrev opwW : Nat := 17

end Sys2Proof.Config
end

