-- ==== Sys2Proof/Word.lean ====
section
/-! DEFINITION. The word types of the engine: bytes, host operation words, and the two fixed-size
stores of bytes (spec/00_scope.md R5, R6; spec/30_encoding.md R50). -/

namespace Sys2Proof

/-- A byte: an unsigned number in 0..255 (R6). `+` on bytes is addition modulo 256 with no carry kept,
`^^^` is `xor`; the engine has no other byte arithmetic (R7). -/
abbrev Byte := BitVec 8

/-- A host operation word `OPW = {W, A[7:0], D[7:0]}` (R50). -/
abbrev OpWord := BitVec 17

/-- The 6-bit buffer index `A[5:0]` of `LDKEY` and `LDIV` (R52). -/
abbrev BufIndex := BitVec 6

/-- A store of exactly `n` bytes, entry 0 first. The entries are a list, so that comparing two stores is one
pass; every store of a given size is in one canonical form, because the size is part of the value
(assumption log 6). -/
structure Bytes (n : Nat) where
  entries : List Byte
  length_eq : entries.length = n
deriving DecidableEq, Repr

/-- The permutation table's 256 entries `P[0]` to `P[255]` (R10). -/
abbrev Table := Bytes 256

/-- A message buffer's 64 bytes: `KEY[0]` to `KEY[63]`, or `IV[0]` to `IV[63]` (R15, R16). -/
abbrev Buffer := Bytes 64

/-- The identity permutation `P[x] = x` (R26, R78). -/
def identityTable : Table := ⟨(List.range 256).map (BitVec.ofNat 8), by simp⟩

/-- A buffer whose 64 bytes are all `0x00` (R26, R79). -/
def zeroBuffer : Buffer := ⟨List.replicate 64 0x00, by simp⟩

end Sys2Proof
end

