-- ==== Sys2Proof/Syntax.lean ====
section
/-! DEFINITION. The host operations as syntax: one constructor for each of the sixteen rows of the
operation map (spec/30_encoding.md R59, spec/opcode_table.json), in decode order. -/

namespace Sys2Proof

/-- A host operation: what a processor spec would call an instruction (30_encoding.md, preamble; R50, R59). -/
inductive Instr where
  /-- `INIT`: construct a cipher instance from the loaded key and IV (R74). -/
  | init
  /-- `START`: open a transform call (R90). -/
  | start
  /-- `CMD.RSVD`: a write to `CMD` of a reserved command number `d` (R117). -/
  | cmdRsvd (d : Byte)
  /-- `SETKLEN n`: state the key length (R70). -/
  | setklen (n : Byte)
  /-- `SETVLEN n`: state the IV length (R71). -/
  | setvlen (n : Byte)
  /-- `XFER b`: transform one byte (R91). -/
  | xfer (b : Byte)
  /-- `LDKEY x, b`: write one key byte (R72). -/
  | ldkey (x : BufIndex) (b : Byte)
  /-- `LDIV x, b`: write one IV byte (R73). -/
  | ldiv (x : BufIndex) (b : Byte)
  /-- `RDSTATUS`: read the status view (R110). -/
  | rdstatus
  /-- `RDERR`: read `ERRCODE` (R111). -/
  | rderr
  /-- `RDERRLEN`: read `ERRLEN` (R112). -/
  | rderrlen
  /-- `RDKLEN`: read `KLEN` (R113). -/
  | rdklen
  /-- `RDVLEN`: read `VLEN` (R114). -/
  | rdvlen
  /-- `RDOUT`: read the output byte (R93). -/
  | rdout
  /-- `RD.RAZ a`: a read of a write-only or reserved address (R115). -/
  | rdRaz (a : Byte)
  /-- `WR.IGN a, d`: a write to a read-only or reserved address (R116). -/
  | wrIgn (a d : Byte)
deriving DecidableEq, Repr

namespace Instr

/-- Format `HW` (host write, `W = 1`) as against format `HR` (host read, `W = 0`) (R51, R59). -/
def isWrite : Instr → Bool
  | init => true
  | start => true
  | cmdRsvd _ => true
  | setklen _ => true
  | setvlen _ => true
  | xfer _ => true
  | ldkey _ _ => true
  | ldiv _ _ => true
  | rdstatus => false
  | rderr => false
  | rderrlen => false
  | rdklen => false
  | rdvlen => false
  | rdout => false
  | rdRaz _ => false
  | wrIgn _ _ => true

/-- A command operation: a write to `CMD` or to `DIN` (00_scope.md glossary; R19). -/
def isCommand : Instr → Bool
  | init => true
  | start => true
  | cmdRsvd _ => true
  | setklen _ => false
  | setvlen _ => false
  | xfer _ => true
  | ldkey _ _ => false
  | ldiv _ _ => false
  | rdstatus => false
  | rderr => false
  | rderrlen => false
  | rdklen => false
  | rdvlen => false
  | rdout => false
  | rdRaz _ => false
  | wrIgn _ _ => false

end Instr

end Sys2Proof
end

