-- ==== Sys2Proof/WellFormed.lean ====
section
/-! DEFINITION. The operand values each row of the operation map admits (spec/30_encoding.md R59,
spec/opcode_table.json "operands"). A term that is not well formed is the word of an earlier row, so the
decoder never gives it. -/

namespace Sys2Proof

/-- The addresses a read of which no earlier read row takes: `0x00`, `0x06`, `0x08` to `0xFF` (R59 row 15). -/
def razAddress (a : Byte) : Bool :=
  a == 0x00 || a == 0x06 || decide (0x08 ≤ a.toNat)

/-- The addresses a write to which no earlier write row takes: `0x01`, `0x02`, `0x03`, `0x07`, `0x08` to `0x3F`,
`0xC0` to `0xFF` (R59 row 16). -/
def ignAddress (a : Byte) : Bool :=
  a == 0x01 || a == 0x02 || a == 0x03 || a == 0x07
    || (decide (0x08 ≤ a.toNat) && decide (a.toNat ≤ 0x3F))
    || decide (0xC0 ≤ a.toNat)

/-- The reserved command numbers: any value but `0x01` and `0x02` (R54, R59 row 3). -/
def rsvdCommand (d : Byte) : Bool :=
  d != 0x01 && d != 0x02

/-- The operands are ones the instruction's row admits (R59). -/
def Instr.wf : Instr → Bool
  | .init => true
  | .start => true
  | .cmdRsvd d => rsvdCommand d
  | .setklen _ => true
  | .setvlen _ => true
  | .xfer _ => true
  | .ldkey _ _ => true
  | .ldiv _ _ => true
  | .rdstatus => true
  | .rderr => true
  | .rderrlen => true
  | .rdklen => true
  | .rdvlen => true
  | .rdout => true
  | .rdRaz a => razAddress a
  | .wrIgn a _ => ignAddress a

end Sys2Proof
end

