-- ==== Sys2Proof/Decode.lean ====
section
/-! DEFINITION. Decoding a host operation word by the operation map, total and in priority order
(spec/30_encoding.md R50 to R53, R59, R60), and the encoder written from the same map. -/

namespace Sys2Proof

/-! ### Fields of an operation word (R50, R52) -/

/-- `W`, bit 16: 1 for a write, 0 for a read. -/
def opWriteBit (w : OpWord) : Bool := w.getLsbD 16

/-- `A`, bits 15:8: the address. -/
def opAddr (w : OpWord) : Byte := w.extractLsb' 8 8

/-- `D`, bits 7:0: the data byte, an operand as it stands (R52). -/
def opData (w : OpWord) : Byte := w.extractLsb' 0 8

/-- `A[5:0]`, bits 13:8: the buffer index of `LDKEY` and `LDIV` (R52). -/
def opIndex (w : OpWord) : BufIndex := w.extractLsb' 8 6

/-! ### The operation map (R59) -/

/-- One row of the operation map: its mnemonic, `match`, `mask`, and how the operands are assembled (R52). -/
structure OpRow where
  mnemonic : String
  pattern : OpWord
  mask : OpWord
  build : OpWord → Instr

/-- The row matches: `(OPW and mask) = match` (R53). -/
def OpRow.takes (r : OpRow) (w : OpWord) : Bool := w &&& r.mask == r.pattern

def rowInit : OpRow := ⟨"INIT", 0x10001, 0x1FFFF, fun _ => .init⟩
def rowStart : OpRow := ⟨"START", 0x10002, 0x1FFFF, fun _ => .start⟩
def rowCmdRsvd : OpRow := ⟨"CMD.RSVD", 0x10000, 0x1FF00, fun w => .cmdRsvd (opData w)⟩
def rowSetklen : OpRow := ⟨"SETKLEN", 0x10400, 0x1FF00, fun w => .setklen (opData w)⟩
def rowSetvlen : OpRow := ⟨"SETVLEN", 0x10500, 0x1FF00, fun w => .setvlen (opData w)⟩
def rowXfer : OpRow := ⟨"XFER", 0x10600, 0x1FF00, fun w => .xfer (opData w)⟩
def rowLdkey : OpRow := ⟨"LDKEY", 0x14000, 0x1C000, fun w => .ldkey (opIndex w) (opData w)⟩
def rowLdiv : OpRow := ⟨"LDIV", 0x18000, 0x1C000, fun w => .ldiv (opIndex w) (opData w)⟩
def rowRdstatus : OpRow := ⟨"RDSTATUS", 0x00100, 0x1FF00, fun _ => .rdstatus⟩
def rowRderr : OpRow := ⟨"RDERR", 0x00200, 0x1FF00, fun _ => .rderr⟩
def rowRderrlen : OpRow := ⟨"RDERRLEN", 0x00300, 0x1FF00, fun _ => .rderrlen⟩
def rowRdklen : OpRow := ⟨"RDKLEN", 0x00400, 0x1FF00, fun _ => .rdklen⟩
def rowRdvlen : OpRow := ⟨"RDVLEN", 0x00500, 0x1FF00, fun _ => .rdvlen⟩
def rowRdout : OpRow := ⟨"RDOUT", 0x00700, 0x1FF00, fun _ => .rdout⟩
def rowRdRaz : OpRow := ⟨"RD.RAZ", 0x00000, 0x10000, fun w => .rdRaz (opAddr w)⟩
def rowWrIgn : OpRow := ⟨"WR.IGN", 0x10000, 0x10000, fun w => .wrIgn (opAddr w) (opData w)⟩

/-- Rows 1 to 15 of the operation map, in decode order (R59). -/
def earlierRows : List OpRow :=
  [rowInit, rowStart, rowCmdRsvd, rowSetklen, rowSetvlen, rowXfer, rowLdkey, rowLdiv,
   rowRdstatus, rowRderr, rowRderrlen, rowRdklen, rowRdvlen, rowRdout, rowRdRaz]

/-- The whole operation map in decode order; row 16 is last (R59). -/
def opTable : List OpRow := earlierRows ++ [rowWrIgn]

/-- The first of `rows` that takes `w`, and `last` where none does (R53). -/
def firstRow (w : OpWord) (last : OpRow) : List OpRow → OpRow
  | [] => last
  | r :: rows => if r.takes w then r else firstRow w last rows

/-- Decoding. The decoder tests rows 1 to 15 in order; row 16 takes every word that is left, since row 15 takes
every read and row 16 every write (R53, R60). No operation word is illegal, so there is nothing to reject. -/
def decode (w : OpWord) : Instr := (firstRow w rowWrIgn earlierRows).build w

/-! ### Numbers that are no operation word -/

/-- Why a number does not decode. -/
inductive DecodeError where
  /-- The number has a bit above bit 16: an operation word has 17 bits and no other length exists (R50).
  Raised by `decodeNumber` only, never by the machine. Safe. -/
  | notAnOperationWord
deriving DecidableEq, Repr

/-- Decoding any number: total, and a number of more than 17 bits is rejected by name (R50; assumption log 10). -/
def decodeNumber (w : Nat) : Except DecodeError Instr :=
  if w < 2 ^ 17 then .ok (decode (BitVec.ofNat 17 w)) else .error .notAnOperationWord

/-- The instruction whose bits are `w`, numbered as spec/opcode_table.json numbers them: bit 0 is bit 0 of the
operation word. A row has 17 bits, so `nbits` adds nothing to `w`. -/
def decodeTableWord (_nbits w : Nat) : Option Instr := (decodeNumber w).toOption

/-! ### Encoding (R50 to R52, R59) -/

/-- The operation word of a write of `d` to address `a` (R50). -/
def hostWriteWord (a d : Byte) : OpWord := 1#1 ++ a ++ d

/-- The operation word of a read of address `a`, its ignored `D` written canonically as `0x00` (R51). -/
def hostReadWord (a : Byte) : OpWord := 0#1 ++ a ++ 0x00#8

/-- The address of `KEY[x]`: window bits `0b01`, then the index (R52). -/
def keyAddr (x : BufIndex) : Byte := 0b01#2 ++ x

/-- The address of `IV[x]`: window bits `0b10`, then the index (R52). -/
def ivAddr (x : BufIndex) : Byte := 0b10#2 ++ x

/-- The canonical operation word of an instruction (R51, R59). -/
def encode : Instr → OpWord
  | .init => hostWriteWord 0x00 0x01
  | .start => hostWriteWord 0x00 0x02
  | .cmdRsvd d => hostWriteWord 0x00 d
  | .setklen n => hostWriteWord 0x04 n
  | .setvlen n => hostWriteWord 0x05 n
  | .xfer b => hostWriteWord 0x06 b
  | .ldkey x b => hostWriteWord (keyAddr x) b
  | .ldiv x b => hostWriteWord (ivAddr x) b
  | .rdstatus => hostReadWord 0x01
  | .rderr => hostReadWord 0x02
  | .rderrlen => hostReadWord 0x03
  | .rdklen => hostReadWord 0x04
  | .rdvlen => hostReadWord 0x05
  | .rdout => hostReadWord 0x07
  | .rdRaz a => hostReadWord a
  | .wrIgn a d => hostWriteWord a d

/-- The row of the operation map an instruction belongs to (R59). -/
def Instr.row : Instr → OpRow
  | .init => rowInit
  | .start => rowStart
  | .cmdRsvd _ => rowCmdRsvd
  | .setklen _ => rowSetklen
  | .setvlen _ => rowSetvlen
  | .xfer _ => rowXfer
  | .ldkey _ _ => rowLdkey
  | .ldiv _ _ => rowLdiv
  | .rdstatus => rowRdstatus
  | .rderr => rowRderr
  | .rderrlen => rowRderrlen
  | .rdklen => rowRdklen
  | .rdvlen => rowRdvlen
  | .rdout => rowRdout
  | .rdRaz _ => rowRdRaz
  | .wrIgn _ _ => rowWrIgn

end Sys2Proof
end

