-- ==== Sys2Proof/Machine/State.lean ====
section
/-! DEFINITION. The state of the engine as plain data (spec/10_state.md), its value after hardware reset (R26), and the
reasons a step could stop. -/

namespace Sys2Proof.Machine

/-- What can arrive at the engine from outside: a host operation on the port (R4, R50), or the hardware reset
input, which is no host operation and has no encoding (R150). -/
inductive PortEvent where
  | operation (w : OpWord)
  | hardwareReset
deriving DecidableEq, Repr

/-- The engine's state (10_state.md section 8), and the two fields of the model's own that stand for the port
(assumption log 1 and 2). -/
structure State where
  /-- `P`, the permutation table, 256 x 8 bits (R10). -/
  P : Table
  /-- `s`, the state scalar, 8 bits (R12). -/
  s : Byte
  /-- `j`, the running index, 8 bits (R13). -/
  j : Byte
  /-- `READY`, 1 bit: the engine holds a cipher instance (R14). -/
  ready : Bool
  /-- `KEY`, the key buffer, 64 x 8 bits (R15). -/
  key : Buffer
  /-- `IV`, the IV buffer, 64 x 8 bits (R16). -/
  iv : Buffer
  /-- `KLEN`, the stated key length, 8 bits (R17). -/
  klen : Byte
  /-- `VLEN`, the stated IV length, 8 bits (R17). -/
  vlen : Byte
  /-- `DOUT`, the output byte, 8 bits (R18). -/
  dout : Byte
  /-- `ERRCODE`, the result code of the most recent command operation, 8 bits (R19). -/
  errcode : Byte
  /-- `ERRLEN`, the length that operation objected to, 8 bits (R20). -/
  errlen : Byte
  /-- MODEL'S OWN: the byte the most recent host operation returned, `none` where it returned nothing (R50: "A read
  operation returns one byte, `rdata`; a write operation returns nothing"; assumption log 2). -/
  rdata : Option Byte
  /-- MODEL'S OWN: what the world outside will present at the port, soonest first (R4, R39; assumption log 1). -/
  pending : List PortEvent
deriving DecidableEq, Repr

/-- The faults of the machine: NONE. An error is a result code, not a trap (R130, R137); no operation word is
illegal and none traps (R53). Nothing raises a value of this type, since it has none. -/
inductive Fault where
deriving DecidableEq, Repr

/-- The reasons for which a meaning could be missing. -/
inductive Refusal where
  /-- An instruction of the operation map that has no meaning yet. Raised by a refused arm of `exec` only; every
  row has its meaning, so no arm raises it. Safe. -/
  | notModelled (mnemonic : String)
deriving DecidableEq, Repr

/-- What one step or one meaning answers. -/
abbrev Result := Host.Outcome State Fault Refusal

/-- The state right after hardware reset (R26, R151): the identity table, all else zero, no instance. The port holds
nothing: after reset the engine waits for host operations. -/
def State.reset : State where
  P := identityTable
  s := 0x00
  j := 0x00
  ready := false
  key := zeroBuffer
  iv := zeroBuffer
  klen := 0
  vlen := 0
  dout := 0x00
  errcode := 0
  errlen := 0
  rdata := none
  pending := []

end Sys2Proof.Machine
end

