-- ==== Sys2Proof/Machine/Operands.lean ====
section
/-! DEFINITION. The engine's addressing modes: the index expressions into the table and the message buffers
(spec/20_memory.md R37, R38; spec/30_encoding.md R52). Every sum is on bytes, so it wraps modulo 256 (R6, R7). -/

namespace Sys2Proof.Machine

/-- A length the schedule round is defined for: 16 to 64 (R75, R76; 93_implementation_defined.md U5). A round is
given a value of this type, so that it cannot be asked to run on another length. -/
abbrev MsgLen := { n : Nat // Config.lenMin ≤ n ∧ n ≤ Config.lenMax }

/-- The index of a byte of `KEY` or `IV` from `A[5:0]`: an unsigned number 0 to 63 (R52). -/
def bufSlot (x : BufIndex) : Fin 64 := x.toFin

/-- `idx = i mod 256` of a schedule step: the low 8 bits of the counter (R7 (d), R76). -/
def schedIdx (i : Nat) : Byte := BitVec.ofNat 8 i

/-- `i mod mlen`, an ordinary remainder; below `mlen`, so inside the buffer (R7 (e), R38). -/
def msgSlot (mlen : MsgLen) (i : Nat) : Fin 64 :=
  ⟨i % mlen.val, by
    have h := mlen.property
    have : i % mlen.val < mlen.val := Nat.mod_lt _ (by simp only [Config.lenMin] at h; omega)
    simp only [Config.lenMax] at h
    omega⟩

/-- `(s + P[idx] + M[i mod mlen]) mod 256` (R76). -/
def schedAddr (s pIdx m : Byte) : Byte := s + pIdx + m

/-- `(s + P[j]) mod 256` (R92 step 1). -/
def genAddr (s pj : Byte) : Byte := s + pj

/-- `(P[P[s]] + 1) mod 256`, the index of the last lookup of the keystream byte (R92 step 2). -/
def keystreamIdx (pps : Byte) : Byte := pps + 1

/-- `(j + 1) mod 256` (R92 step 5). -/
def nextIndex (j : Byte) : Byte := j + 1

end Sys2Proof.Machine
end

