-- ==== Sys2Proof/Machine/Flags.lean ====
section
/-! DEFINITION. The engine's only status computations: the result codes, the length check and the `STATUS` view
(spec/10_state.md R19, R21; spec/40_key_schedule.md R75; spec/60_exceptions.md R131). No arithmetic makes a flag (R7). -/

namespace Sys2Proof.Machine

/-- The named result codes (R19, R131). -/
inductive ErrCode where
  | ok
  | invalidKeySize
  | invalidIvSize
  | notReady
  | illegalCmd
deriving DecidableEq, Repr

/-- The number `ERRCODE` holds for each code (R19, R131). -/
def errNumber : ErrCode → Byte
  | .ok => 0
  | .invalidKeySize => 1
  | .invalidIvSize => 2
  | .notReady => 3
  | .illegalCmd => 4

/-- The length as a schedule round takes it, where it is legal: 16 to 64, compared unsigned (R7 (f), R75). -/
def legalLength (n : Byte) : Option MsgLen :=
  if h : Config.lenMin ≤ n.toNat ∧ n.toNat ≤ Config.lenMax then some ⟨n.toNat, h⟩ else none

/-- `LengthCheck(klen, vlen)`: the first violated precondition with its length, or the two legal lengths; the key is
tested first and the IV is not examined if it fails (R75, R136). -/
def lengthCheck (klen vlen : Byte) : Except (ErrCode × Byte) (MsgLen × MsgLen) :=
  match legalLength klen with
  | none => .error (.invalidKeySize, klen)
  | some k =>
    match legalLength vlen with
    | none => .error (.invalidIvSize, vlen)
    | some v => .ok (k, v)

/-- The `STATUS` view `{0b000000, ERR, READY}`: bit 0 is `READY`, bit 1 is 1 exactly when `ERRCODE` is not 0 (R21, R110). -/
def statusView (st : State) : Byte :=
  0b000000#6 ++ BitVec.ofBool (st.errcode != 0) ++ BitVec.ofBool st.ready

end Sys2Proof.Machine
end

