-- ==== Sys2Proof/Machine/Ops.lean ====
section
/-! DEFINITION. The operations the meanings are written over: reading and writing the table and the buffers, the result of
a command (the engine's whole error mechanism), the port, and the internal procedures of `INIT` and `XFER`
(spec/00_scope.md R6; spec/20_memory.md R37, R38; spec/40_key_schedule.md R76 to R79; spec/41_keystream_transform.md R92;
spec/60_exceptions.md R130). -/

namespace Sys2Proof.Machine

/-! ### Table and buffers -/

/-- The byte at entry `x` of a store. -/
def readAt {n : Nat} (m : Bytes n) (x : Fin n) : Byte :=
  m.entries[x.val]'(by rw [m.length_eq]; exact x.isLt)

/-- The store with entry `x` replaced by `v`. -/
def writeAt {n : Nat} (m : Bytes n) (x : Fin n) (v : Byte) : Bytes n :=
  ⟨m.entries.set x.val v, by rw [List.length_set, m.length_eq]⟩

/-- `P[x]`: a table read; every byte is an index, so no access is out of range (R6, R37). -/
def tableRead (P : Table) (x : Byte) : Byte := readAt P x.toFin

/-- `P[x] <- v` (R6). -/
def tableWrite (P : Table) (x v : Byte) : Table := writeAt P x.toFin v

/-- `swap(P[a], P[b])`: both reads before both writes; nothing changes when `a = b` (R6). -/
def tableSwap (P : Table) (a b : Byte) : Table :=
  tableWrite (tableWrite P a (tableRead P b)) b (tableRead P a)

/-! ### Results: what an error does, and what success does -/

/-- `ERRCODE <- code; ERRLEN <- len` (R6, R19, R20). -/
def setResult (code : ErrCode) (len : Byte) (st : State) : State :=
  { st with errcode := errNumber code, errlen := len }

/-- `error <code>(len)`: the one way an operation fails. It saves nothing and goes nowhere; the two result registers
are written and no other state changes (R6, R130, R137). There is no return from it (R138). -/
abbrev failWith (code : ErrCode) (len : Byte) (st : State) : State := setResult code len st

/-- The end of a command operation that met no error: `ERRCODE <- 0; ERRLEN <- 0` (R74, R90, R91, R131). -/
abbrev succeed (st : State) : State := setResult .ok 0 st

/-! ### The port -/

/-- `rdata <- v`: the byte a read operation returns (R50). A read changes no other state (R118). -/
def returnByte (v : Byte) (st : State) : State := { st with rdata := some v }

/-- The port accepts the next host operation: it is taken off the port, and nothing has been returned for it yet (R4, R39,
R50). -/
def acceptOperation (rest : List PortEvent) (st : State) : State :=
  { st with rdata := none, pending := rest }

/-- Hardware reset: every piece of the engine's state takes its value of R26; what the world outside will present
afterwards is not the engine's to change (R150; assumption log 5). -/
def hardwareReset (rest : List PortEvent) : State := { State.reset with pending := rest }

/-! ### The schedule round -/

/-- A cipher instance's own state, the pair `(P, s)` (00_scope.md glossary, "Cipher instance"). -/
structure Cipher where
  P : Table
  s : Byte
deriving DecidableEq, Repr

/-- `ScheduleStep(M, mlen, i)`: the sum and the lookup read the table before the swap; the swap uses the new `s` (R76). -/
def scheduleStep (M : Buffer) (mlen : MsgLen) (c : Cipher) (i : Nat) : Cipher :=
  let idx := schedIdx i
  let addr := schedAddr c.s (tableRead c.P idx) (readAt M (msgSlot mlen i))
  let s' := tableRead c.P addr
  { P := tableSwap c.P idx s', s := s' }

/-- `ScheduleRound(M, mlen)`: 768 steps in ascending order of `i`, whatever `mlen` is (R77). Irreducible, so that
no proof by unfolding runs into the 768 steps; `scheduleRound_eq` is its equation. -/
@[irreducible] def scheduleRound (M : Buffer) (mlen : MsgLen) (c : Cipher) : Cipher :=
  (List.range Config.schedIters).foldl (scheduleStep M mlen) c

/-- `Construct(K, klen, V, vlen)`: identity table and `s = 0`, the key round, then the IV round with `s` carried over (R78). -/
def construct (K : Buffer) (klen : MsgLen) (V : Buffer) (vlen : MsgLen) : Cipher :=
  scheduleRound V vlen (scheduleRound K klen { P := identityTable, s := 0x00 })

/-- The engine takes over a constructed instance: `P` and `s` are written (R74, R78). -/
def installCipher (c : Cipher) (st : State) : State := { st with P := c.P, s := c.s }

/-- `j <- 0; READY <- 1; DOUT <- 0x00` of a successful `INIT` (R74). -/
def openInstance (st : State) : State := { st with j := 0x00, ready := true, dout := 0x00 }

/-- `Zeroise()`: `KEY`, `IV`, `KLEN` and `VLEN` are erased (R79). -/
def zeroise (st : State) : State :=
  { st with key := zeroBuffer, iv := zeroBuffer, klen := 0, vlen := 0 }

/-! ### The generation step -/

/-- What one generation step leaves and yields. -/
structure GenResult where
  P : Table
  s : Byte
  j : Byte
  k : Byte
deriving DecidableEq, Repr

/-- `GenStep()`: `k` is taken from the table before the swap and with the new `s`; the swap uses the new `s` and the old
`j`; `j` advances last (R92). -/
def genStep (P : Table) (s j : Byte) : GenResult :=
  let addr := genAddr s (tableRead P j)
  let s' := tableRead P addr
  let k := tableRead P (keystreamIdx (tableRead P (tableRead P s')))
  { P := tableSwap P j s', s := s', j := nextIndex j, k := k }

/-- `DOUT <- b xor k` together with the generation step's writes to `s`, `P` and `j` (R91). -/
def emitByte (b : Byte) (g : GenResult) (st : State) : State :=
  { st with P := g.P, s := g.s, j := g.j, dout := b ^^^ g.k }

end Sys2Proof.Machine
end

