-- ==== Sys2Proof/Machine/HostAccess.lean ====
section
/-! DEFINITION. Status and result reads, and the three fall-back behaviours (spec/42_host_register_access.md R110 to R117). -/

namespace Sys2Proof.Machine

/-- `RDSTATUS`: `rdata <- {0b000000, ERR, READY}` (R110). -/
def execRdstatus (st : State) : Result := .next (returnByte (statusView st) st)

/-- `RDERR`: `rdata <- ERRCODE` (R111). -/
def execRderr (st : State) : Result := .next (returnByte st.errcode st)

/-- `RDERRLEN`: `rdata <- ERRLEN` (R112). -/
def execRderrlen (st : State) : Result := .next (returnByte st.errlen st)

/-- `RDKLEN`: `rdata <- KLEN` (R113). -/
def execRdklen (st : State) : Result := .next (returnByte st.klen st)

/-- `RDVLEN`: `rdata <- VLEN` (R114). -/
def execRdvlen (st : State) : Result := .next (returnByte st.vlen st)

/-- `RD.RAZ a`: `rdata <- 0x00`, whatever the address (R36, R115). -/
def execRdRaz (_a : Byte) (st : State) : Result := .next (returnByte 0x00 st)

/-- `WR.IGN a, d`: no state changes (R36, R116). -/
def execWrIgn (_a _d : Byte) (st : State) : Result := .next st

/-- `CMD.RSVD`: `error ILLEGAL_CMD(0)`, always (R117, R135). -/
def execCmdRsvd (_d : Byte) (st : State) : Result := .next (failWith .illegalCmd 0 st)

end Sys2Proof.Machine
end

