-- ==== Sys2Proof/Machine/KeySchedule.lean ====
section
/-! DEFINITION. Key and IV loading and the `INIT` command (spec/40_key_schedule.md R70 to R75, R79). -/

namespace Sys2Proof.Machine

/-- `SETKLEN n`: `KLEN <- n`, any value; legality is tested by `INIT` only (R70). -/
def execSetklen (n : Byte) (st : State) : Result := .next { st with klen := n }

/-- `SETVLEN n`: `VLEN <- n` (R71). -/
def execSetvlen (n : Byte) (st : State) : Result := .next { st with vlen := n }

/-- `LDKEY x, b`: `KEY[A[5:0]] <- D` (R72). -/
def execLdkey (x : BufIndex) (b : Byte) (st : State) : Result :=
  .next { st with key := writeAt st.key (bufSlot x) b }

/-- `LDIV x, b`: `IV[A[5:0]] <- D` (R73). -/
def execLdiv (x : BufIndex) (b : Byte) (st : State) : Result :=
  .next { st with iv := writeAt st.iv (bufSlot x) b }

/-- `INIT`: an illegal length is reported and nothing else changes; otherwise the instance is constructed and the key and
IV input state erased (R74). -/
def execInit (st : State) : Result :=
  match lengthCheck st.klen st.vlen with
  | .error (code, len) => .next (failWith code len st)
  | .ok (klen, vlen) =>
    .next (succeed (zeroise (openInstance (installCipher (construct st.key klen st.iv vlen) st))))

end Sys2Proof.Machine
end

