-- ==== Sys2Proof/Machine/Keystream.lean ====
section
/-! DEFINITION. `START`, `XFER` and `RDOUT` (spec/41_keystream_transform.md R90, R91, R93). -/

namespace Sys2Proof.Machine

/-- `START`: without an instance it fails with `NOT_READY`; otherwise `j <- 0` and nothing else of the cipher state
changes (R90, R134). -/
def execStart (st : State) : Result :=
  if st.ready then .next (succeed { st with j := 0x00 }) else .next (failWith .notReady 0 st)

/-- `XFER b`: without an instance it fails with `NOT_READY` and emits nothing; otherwise one generation step and
`DOUT <- b xor k` (R91, R134). -/
def execXfer (b : Byte) (st : State) : Result :=
  if st.ready then .next (succeed (emitByte b (genStep st.P st.s st.j) st))
  else .next (failWith .notReady 0 st)

/-- `RDOUT`: `rdata <- DOUT` (R93). -/
def execRdout (st : State) : Result := .next (returnByte st.dout st)

end Sys2Proof.Machine
end

