-- ==== Sys2Proof/Machine/Dispatch.lean ====
section
/-! DEFINITION. The meaning of every host operation: one arm per row of the operation map (spec/30_encoding.md R59). -/

namespace Sys2Proof.Machine

def exec (i : Instr) (st : State) : Host.Outcome State Fault Refusal :=
  match i with
  | .init => Sys2Proof.Machine.execInit st
  | .start => Sys2Proof.Machine.execStart st
  | .cmdRsvd d => Sys2Proof.Machine.execCmdRsvd d st
  | .setklen n => Sys2Proof.Machine.execSetklen n st
  | .setvlen n => Sys2Proof.Machine.execSetvlen n st
  | .xfer b => Sys2Proof.Machine.execXfer b st
  | .ldkey x b => Sys2Proof.Machine.execLdkey x b st
  | .ldiv x b => Sys2Proof.Machine.execLdiv x b st
  | .rdstatus => Sys2Proof.Machine.execRdstatus st
  | .rderr => Sys2Proof.Machine.execRderr st
  | .rderrlen => Sys2Proof.Machine.execRderrlen st
  | .rdklen => Sys2Proof.Machine.execRdklen st
  | .rdvlen => Sys2Proof.Machine.execRdvlen st
  | .rdout => Sys2Proof.Machine.execRdout st
  | .rdRaz a => Sys2Proof.Machine.execRdRaz a st
  | .wrIgn a d => Sys2Proof.Machine.execWrIgn a d st

end Sys2Proof.Machine
end

