-- ==== Sys2Proof/Machine/Step.lean ====
section
/-! DEFINITION. One step of the engine (spec/00_scope.md R4; spec/20_memory.md R39; spec/70_reset_and_hazards.md R150). -/

namespace Sys2Proof.Machine

/-- The engine performs the next event at its port to completion. It fetches no instructions (R23): the operation word is
what the host presents. With nothing at the port it waits, and all state survives (R26, R141). -/
def step (st : State) : Host.Outcome State Fault Refusal :=
  match st.pending with
  | [] => .next st
  | .operation w :: rest => exec (decode w) (acceptOperation rest st)
  | .hardwareReset :: rest => .next (hardwareReset rest)

/-- The state whose very next step performs the operation word `w`: the host presents that word first (assumption log
4). A row has 17 bits, so `nbits` adds nothing to `w`. -/
def State.withFetchWord (st : State) (_nbits w : Nat) : State :=
  { st with pending := .operation (BitVec.ofNat 17 w) :: st.pending }

end Sys2Proof.Machine
end

