-- ==== Sys2Proof/Safety.lean ====
section
/-! DEFINITION. The terms claims are stated in: what a good state is (spec/10_state.md R11, R14, R19, R20), sequences of host
operations (spec/20_memory.md R39), the host's images of the source's two procedures (spec/00_scope.md R9; spec/30_encoding.md
R57), and the source's software cipher itself, on tables as functions, to compare the engine with. -/

namespace Sys2Proof.Safety

open Sys2Proof.Machine

/-! ### Good states -/

/-- Every value 0..255 appears exactly once in the table (R11). -/
def IsPermutation (P : Table) : Prop := ∀ v : Byte, ∃! x : Byte, tableRead P x = v

/-- A length `INIT` accepts (R75). -/
abbrev LegalLength (n : Nat) : Prop := 16 ≤ n ∧ n ≤ 64

/-- What `ERRCODE` and `ERRLEN` can hold together: codes 0 to 4 only; the offending length beside codes 1 and 2, and 0 beside
the others; `NOT_READY` only while there is no instance (R19, R20, R131, R134). -/
abbrev ResultLegal (st : State) : Prop :=
  (st.errcode = 0 ∧ st.errlen = 0)
  ∨ ((st.errcode = 1 ∨ st.errcode = 2) ∧ ¬ LegalLength st.errlen.toNat)
  ∨ (st.errcode = 3 ∧ st.errlen = 0 ∧ st.ready = false)
  ∨ (st.errcode = 4 ∧ st.errlen = 0)

/-- While there is no instance the cipher state and the output byte are those of reset: nothing but a successful `INIT` has
effect on them (R14, R18, R97, R151). -/
abbrev NoInstanceYet (st : State) : Prop :=
  st.ready = false → st.P = identityTable ∧ st.s = 0x00 ∧ st.j = 0x00 ∧ st.dout = 0x00

/-- Byte `i` of a message buffer; asked for indices below 64 only. -/
def bufferByte (M : Buffer) (i : Nat) : Byte := M.entries.getD i 0

/-- Two operations that are the same but for the data byte of an `XFER` (R96). -/
def SameButData (i i' : Instr) : Prop := i = i' ∨ ∃ b b', i = .xfer b ∧ i' = .xfer b'

/-! ### Sequences of host operations -/

/-- One host operation given to the engine: nothing has been returned for it yet, and then it is executed. -/
def perform (i : Instr) (st : State) : Result := exec i { st with rdata := none }

/-- Host operations one after another, each to completion before the next (R39). -/
def runOps : List Instr → State → Result
  | [], st => .next st
  | i :: is, st =>
    match perform i st with
    | .next t => runOps is t
    | .fault r => .fault r
    | .refused r => .refused r

/-- What each operation of a sequence returns to the host: a byte for a read, nothing for a write (R50). -/
def responses : List Instr → State → List (Option Byte)
  | [], _ => []
  | i :: is, st =>
    match perform i st with
    | .next t => t.rdata :: responses is t
    | .fault _ => []
    | .refused _ => []

/-- The bytes returned by the reads of a sequence, in order. -/
def bytesRead (is : List Instr) (st : State) : List Byte := (responses is st).filterMap id

/-- A number of steps of the engine, one after another. -/
def runSteps : Nat → State → Result
  | 0, st => .next st
  | n + 1, st =>
    match step st with
    | .next t => runSteps n t
    | .fault r => .fault r
    | .refused r => .refused r

/-- A host operation as the host puts it on the port, in its canonical word (R51). -/
def asEvent (i : Instr) : PortEvent := .operation (encode i)

/-- The image of `transform(dst, src)` without its `START`: `XFER src[i]; RDOUT` for each byte (R57 `CONTINUE`). -/
def continueOps (src : List Byte) : List Instr := src.flatMap fun b => [.xfer b, .rdout]

/-- The image of `transform(dst, src)`: `START`, then the bytes (R9, R57 `TRANSFORM`). -/
def transformOps (src : List Byte) : List Instr := .start :: continueOps src

/-- `LDKEY i, key[i]` for `i = 0..min(a,64)-1` (R9, R57 `LOADKEY`). -/
def loadKeyOps (key : List Byte) : List Instr :=
  .setklen (BitVec.ofNat 8 key.length)
    :: (key.take 64).zipIdx.map fun p => .ldkey (BitVec.ofNat 6 p.2) p.1

/-- `LDIV i, iv[i]` for `i = 0..min(b,64)-1` (R9, R57 `LOADIV`). -/
def loadIvOps (iv : List Byte) : List Instr :=
  .setvlen (BitVec.ofNat 8 iv.length)
    :: (iv.take 64).zipIdx.map fun p => .ldiv (BitVec.ofNat 6 p.2) p.1

/-- The image of `initialize(key, iv)` up to and including the command (R9). -/
def initializeOps (key iv : List Byte) : List Instr := loadKeyOps key ++ loadIvOps iv ++ [.init]

/-- The outputs of a sequence of `START` (`none`) and `XFER b` (`some b`) operations, kept at their places: `none` where there
was a `START`, and the byte of `DOUT` after each `XFER` (R95). -/
def callOutputs : List (Option Byte) → State → List (Option Byte)
  | [], _ => []
  | none :: cs, st =>
    match exec .start st with
    | .next t => none :: callOutputs cs t
    | .fault _ => []
    | .refused _ => []
  | some b :: cs, st =>
    match exec (.xfer b) st with
    | .next t => some t.dout :: callOutputs cs t
    | .fault _ => []
    | .refused _ => []

/-! ### The source's software cipher (R9, quoted in 40_key_schedule.md and 41_keystream_transform.md) -/

/-- The source's data model: the table as a map from bytes to bytes, and the state scalar. -/
structure SoftCipher where
  P : Byte → Byte
  s : Byte

/-- "swap `P[a]` and `P[b]`". -/
def softSwap (P : Byte → Byte) (a b : Byte) : Byte → Byte :=
  fun x => if x = a then P b else if x = b then P a else P x

/-- The byte `m[i mod mlen]` of a non-empty sequence; the index is always inside it. -/
def cyclicByte (m : List Byte) (i : Nat) : Byte := m.getD (i % m.length) 0

/-- One iteration of the source's schedule round: "`idx = i mod 256`"; "`s = P[(s + P[idx] + m[i mod mlen]) mod 256]`";
"swap `P[idx]` and `P[s]`" (quoted in R76). -/
def softScheduleStep (m : Nat → Byte) (c : SoftCipher) (i : Nat) : SoftCipher :=
  let s' := c.P (c.s + c.P (BitVec.ofNat 8 i) + m i)
  { P := softSwap c.P (BitVec.ofNat 8 i) s', s := s' }

/-- "For i = 0 to 767 (768 iterations, independent of `mlen`)" (quoted in R77). -/
def softScheduleRound (m : Nat → Byte) (c : SoftCipher) : SoftCipher :=
  (List.range 768).foldl (softScheduleStep m) c

/-- The source's three-step construction from the bytes the two rounds read (quoted in R78). -/
def softConstruct (key iv : Nat → Byte) : SoftCipher :=
  softScheduleRound iv (softScheduleRound key { P := fun x => x, s := 0 })

/-- One iteration of the source's transform, steps 1 to 5, with the running index `j`: the new instance, the new `j`, and the
output byte (quoted in R92). -/
def softGenStep (c : SoftCipher) (j b : Byte) : SoftCipher × Byte × Byte :=
  let s' := c.P (c.s + c.P j)
  let k := c.P (c.P (c.P s') + 1)
  ({ P := softSwap c.P j s', s := s' }, j + 1, b ^^^ k)

/-- The source's loop "For each input byte position `i` from 0 to `len(src)-1`" from index `j` (quoted in R91). -/
def softTransformFrom (c : SoftCipher) (j : Byte) : List Byte → SoftCipher × List Byte
  | [] => (c, [])
  | b :: src =>
    let (c', j', d) := softGenStep c j b
    let (c'', dst) := softTransformFrom c' j' src
    (c'', d :: dst)

/-- The source's `transform(dst, src)`: the running index starts at 0 in every call (quoted in R13; 90_conflicts.md C1). -/
def softTransform (c : SoftCipher) (src : List Byte) : SoftCipher × List Byte := softTransformFrom c 0 src

/-- The engine's cipher state as the source's pair `(P, s)`. -/
def softOf (st : State) : SoftCipher := { P := tableRead st.P, s := st.s }

end Sys2Proof.Safety
end

