-- ==== Sys2Proof/Certificates/Slice0/Obligations.lean ====
section
/-! DEFINITION. The statements for the provers: the spec's rules about what a host operation, a step and the whole engine do.
A statement that names `rdata` or `pending` speaks of the model's own image of the port (assumption log 1 and 2). -/

open Sys2Proof Sys2Proof.Machine Sys2Proof.Safety

/-! ### Encoding and decoding (30_encoding.md) -/

/-- Words written out from the operation map and the rules' examples decode to what they stand for. -/
def Obligations.SampleWordsDecode : Prop :=
  decode 0x10001 = .init ∧ decode 0x10002 = .start ∧ decode 0x1007F = .cmdRsvd 0x7F
  ∧ decode 0x10410 = .setklen 16 ∧ decode 0x10541 = .setvlen 65 ∧ decode 0x10641 = .xfer 0x41
  ∧ decode 0x14FC7 = .ldkey 15 0xC7 ∧ decode 0x18F55 = .ldiv 15 0x55
  ∧ decode 0x00700 = .rdout ∧ decode 0x04000 = .rdRaz 0x40 ∧ decode 0x101FF = .wrIgn 0x01 0xFF

/-- Every instruction with operands its row admits is the meaning of its own word. -/
def Obligations.DecodeOfEncode : Prop :=
  ∀ i : Instr, i.wf = true → decode (encode i) = i

/-- Every word decodes to an instruction with operands its row admits, and encodes back to itself but for the ignored `D` field
of a read, which is written `0x00`. -/
def Obligations.EncodeOfDecode : Prop :=
  ∀ w : OpWord, (decode w).wf = true
    ∧ encode (decode w) = if opWriteBit w then w else w &&& 0x1FF00#17

/-- Decoding takes the first row of the operation map that matches, and there always is one (R53). -/
def Obligations.DecodeIsFirstMatchingRow : Prop :=
  ∀ w : OpWord, ∃ earlier r later,
    opTable = earlier ++ r :: later
    ∧ w &&& r.mask = r.pattern
    ∧ (∀ q ∈ earlier, w &&& q.mask ≠ q.pattern)
    ∧ decode w = r.build w

/-- Which row takes which address, for every `D` (R60, the spec's own derivation from R53 and R59). -/
def Obligations.OperationMapIsComplete : Prop :=
  ∀ a d : Byte,
    decode (1#1 ++ a ++ d) =
      (if a = 0x00 then (if d = 0x01 then .init else if d = 0x02 then .start else .cmdRsvd d)
       else if a = 0x04 then .setklen d
       else if a = 0x05 then .setvlen d
       else if a = 0x06 then .xfer d
       else if 0x40 ≤ a.toNat ∧ a.toNat ≤ 0x7F then .ldkey (BitVec.ofNat 6 (a.toNat - 0x40)) d
       else if 0x80 ≤ a.toNat ∧ a.toNat ≤ 0xBF then .ldiv (BitVec.ofNat 6 (a.toNat - 0x80)) d
       else .wrIgn a d)
    ∧ decode (0#1 ++ a ++ d) =
      (if a = 0x01 then .rdstatus
       else if a = 0x02 then .rderr
       else if a = 0x03 then .rderrlen
       else if a = 0x04 then .rdklen
       else if a = 0x05 then .rdvlen
       else if a = 0x07 then .rdout
       else .rdRaz a)

/-! ### Steps, the port and reset -/

/-- A step performs the operation at the port: it is taken off the port, nothing has been returned for it yet, and then its
meaning runs. -/
def Obligations.StepPerformsPresentedOperation : Prop :=
  ∀ (st : State) (w : OpWord) (rest : List PortEvent) (i : Instr),
    st.pending = .operation w :: rest → decode w = i →
    step st = exec i { st with rdata := none, pending := rest }

/-- With nothing at the port a step changes nothing at all. -/
def Obligations.IdleEngineKeepsAllState : Prop :=
  ∀ st : State, st.pending = [] → step st = .next st

/-- Hardware reset puts every piece of the engine's state to its reset value, whatever the state was (R150); what will
arrive at the port afterwards stays (assumption log 5). -/
def Obligations.HardwareResetRestoresResetState : Prop :=
  ∀ (st : State) (rest : List PortEvent),
    st.pending = .hardwareReset :: rest →
    ∃ t, step st = .next t
      ∧ (∀ x, tableRead t.P x = x) ∧ t.s = 0x00 ∧ t.j = 0x00 ∧ t.ready = false
      ∧ (∀ x, readAt t.key x = 0x00) ∧ (∀ x, readAt t.iv x = 0x00)
      ∧ t.klen = 0 ∧ t.vlen = 0 ∧ t.dout = 0x00 ∧ t.errcode = 0 ∧ t.errlen = 0
      ∧ t.pending = rest

/-- The reset values of the table in R26. -/
def Obligations.ResetStateIsAsTabulated : Prop :=
  (∀ x : Byte, tableRead State.reset.P x = x)
  ∧ State.reset.s = 0x00 ∧ State.reset.j = 0x00 ∧ State.reset.ready = false
  ∧ (∀ x, readAt State.reset.key x = 0x00) ∧ (∀ x, readAt State.reset.iv x = 0x00)
  ∧ State.reset.klen = 0 ∧ State.reset.vlen = 0 ∧ State.reset.dout = 0x00
  ∧ State.reset.errcode = 0 ∧ State.reset.errlen = 0 ∧ statusView State.reset = 0x00

/-- Every step completes, whatever the state and whatever is at the port, and takes exactly one event off the port. -/
def Obligations.EveryStepCompletes : Prop :=
  ∀ st : State, ∃ t, step st = .next t ∧ t.pending = st.pending.tail

/-- What a read of each address returns, and that it changes nothing else (R31, column "what a read returns"). -/
def Obligations.RegisterMapReads : Prop :=
  ∀ (st : State) (a d : Byte) (rest : List PortEvent),
    st.pending = .operation (0#1 ++ a ++ d) :: rest →
    step st = .next { st with
      pending := rest
      rdata := some
        (if a = 0x01 then statusView st
         else if a = 0x02 then st.errcode
         else if a = 0x03 then st.errlen
         else if a = 0x04 then st.klen
         else if a = 0x05 then st.vlen
         else if a = 0x07 then st.dout
         else 0x00) }

/-- What a write to each address does (R31, column "what a write does"; R54 for `CMD`). -/
def Obligations.RegisterMapWrites : Prop :=
  ∀ (st : State) (a d : Byte) (rest : List PortEvent),
    st.pending = .operation (1#1 ++ a ++ d) :: rest →
    let st' := { st with rdata := none, pending := rest }
    (a = 0x00 → d = 0x01 → step st = exec .init st')
    ∧ (a = 0x00 → d = 0x02 → step st = exec .start st')
    ∧ (a = 0x00 → d ≠ 0x01 → d ≠ 0x02 → step st = .next { st' with errcode := 4, errlen := 0 })
    ∧ (a = 0x04 → step st = .next { st' with klen := d })
    ∧ (a = 0x05 → step st = .next { st' with vlen := d })
    ∧ (a = 0x06 → step st = exec (.xfer d) st')
    ∧ (0x40 ≤ a.toNat → a.toNat ≤ 0x7F →
        ∃ m, step st = .next { st' with key := m }
          ∧ ∀ y : Fin 64, readAt m y = if y.val = a.toNat - 0x40 then d else readAt st.key y)
    ∧ (0x80 ≤ a.toNat → a.toNat ≤ 0xBF →
        ∃ m, step st = .next { st' with iv := m }
          ∧ ∀ y : Fin 64, readAt m y = if y.val = a.toNat - 0x80 then d else readAt st.iv y)
    ∧ (a = 0x01 ∨ a = 0x02 ∨ a = 0x03 ∨ a = 0x07 ∨ (0x08 ≤ a.toNat ∧ a.toNat ≤ 0x3F) ∨ 0xC0 ≤ a.toNat →
        step st = .next st')

/-- A run of the engine over operations presented at the port is those operations performed one after another, each to
completion and seeing the full effect of the one before (R39). -/
def Obligations.PortRunPerformsOperationsInOrder : Prop :=
  ∀ (is : List Instr) (st : State) (rest : List PortEvent),
    (∀ i ∈ is, i.wf = true) →
    runSteps is.length { st with pending := is.map asEvent ++ rest }
      = runOps is { st with pending := rest }

/-! ### Loading (40_key_schedule.md section 1) -/

/-- `SETKLEN n`, whose word is `0x10400 | n`, writes `KLEN` and nothing else, for every `n` (R70). -/
def Obligations.SetklenWritesKlen : Prop :=
  ∀ (n : Byte) (st : State),
    decode (0x10400#17 ||| n.setWidth 17) = .setklen n
    ∧ exec (.setklen n) st = .next { st with klen := n }

/-- `SETVLEN n`, whose word is `0x10500 | n`, writes `VLEN` and nothing else, for every `n` (R71). -/
def Obligations.SetvlenWritesVlen : Prop :=
  ∀ (n : Byte) (st : State),
    decode (0x10500#17 ||| n.setWidth 17) = .setvlen n
    ∧ exec (.setvlen n) st = .next { st with vlen := n }

/-- `LDKEY x, b`, whose word is `0x14000 | (x << 8) | b`, writes the one byte `KEY[x]`; every other byte and all other state is
as it was (R72). -/
def Obligations.LdkeyWritesOneKeyByte : Prop :=
  ∀ (x : BufIndex) (b : Byte) (st : State), ∃ t,
    decode (0x14000#17 ||| x.setWidth 17 <<< 8 ||| b.setWidth 17) = .ldkey x b
    ∧ exec (.ldkey x b) st = .next t
    ∧ (∀ y : Fin 64, readAt t.key y = if y.val = x.toNat then b else readAt st.key y)
    ∧ t = { st with key := t.key }

/-- `LDIV x, b`, whose word is `0x18000 | (x << 8) | b`, writes the one byte `IV[x]`; every other byte and all other state is
as it was (R73). -/
def Obligations.LdivWritesOneIvByte : Prop :=
  ∀ (x : BufIndex) (b : Byte) (st : State), ∃ t,
    decode (0x18000#17 ||| x.setWidth 17 <<< 8 ||| b.setWidth 17) = .ldiv x b
    ∧ exec (.ldiv x b) st = .next t
    ∧ (∀ y : Fin 64, readAt t.iv y = if y.val = x.toNat then b else readAt st.iv y)
    ∧ t = { st with iv := t.iv }

/-- Writing the same value twice to `KLEN`, `VLEN`, `KEY[x]` or `IV[x]` equals writing it once (R35). -/
def Obligations.StoringWritesAreIdempotent : Prop :=
  ∀ (i : Instr) (st t : State),
    ((∃ n, i = .setklen n) ∨ (∃ n, i = .setvlen n) ∨ (∃ x b, i = .ldkey x b) ∨ ∃ x b, i = .ldiv x b) →
    exec i st = .next t → exec i t = .next t

/-! ### INIT (40_key_schedule.md sections 2 and 3) -/

/-- `INIT`, whose word is `0x10001`, and its three branches (R74, R75). An illegal key length, whatever the IV length, fails it with code 1 and that length;
with a legal key length an illegal IV length fails it with code 2 and that length; either failure changes nothing else (R132,
R133). With two legal lengths it constructs: `P` and `s` are the result of the source's construction over the stated key and IV
bytes (identity table and `s = 0`, 768 steps with the key, 768 with the IV, each step as R76 has it), `j`, `DOUT`, the result
registers and all key and IV input state are zero, `READY` is 1, and nothing else changes (R76 to R79). -/
def Obligations.InitFollowsItsRule : Prop :=
  decode 0x10001 = .init
  ∧ ∀ st : State,
    (¬ LegalLength st.klen.toNat →
      exec .init st = .next { st with errcode := 1, errlen := st.klen })
    ∧ (LegalLength st.klen.toNat → ¬ LegalLength st.vlen.toNat →
      exec .init st = .next { st with errcode := 2, errlen := st.vlen })
    ∧ (LegalLength st.klen.toNat → LegalLength st.vlen.toNat →
      let c := softConstruct (fun i => bufferByte st.key (i % st.klen.toNat))
        (fun i => bufferByte st.iv (i % st.vlen.toNat))
      ∃ t, exec .init st = .next t
        ∧ (∀ x, tableRead t.P x = c.P x) ∧ t.s = c.s
        ∧ (∀ x, readAt t.key x = 0x00) ∧ (∀ x, readAt t.iv x = 0x00)
        ∧ t = { st with
            P := t.P, s := t.s, j := 0x00, ready := true, dout := 0x00,
            key := t.key, iv := t.iv, klen := 0, vlen := 0, errcode := 0, errlen := 0 })

/-- The instance a successful `INIT` leaves depends on `KEY[0..KLEN-1]`, `KLEN`, `IV[0..VLEN-1]` and `VLEN` alone: no other
buffer byte and nothing of the earlier state enters it (R74 corner cases h and i). -/
def Obligations.InitDependsOnlyOnStatedMaterial : Prop :=
  ∀ st st' : State,
    LegalLength st.klen.toNat → LegalLength st.vlen.toNat →
    st'.klen = st.klen → st'.vlen = st.vlen →
    (∀ x, x < st.klen.toNat → bufferByte st'.key x = bufferByte st.key x) →
    (∀ x, x < st.vlen.toNat → bufferByte st'.iv x = bufferByte st.iv x) →
    ∃ t, exec .init st = .next t
      ∧ exec .init st' = .next { t with rdata := st'.rdata, pending := st'.pending }

/-- `INIT` again without a reload fails with code 1 and length 0, and the instance stays (R74 corner case e, R153). -/
def Obligations.SecondInitWithoutReloadFails : Prop :=
  ∀ st t : State, LegalLength st.klen.toNat → LegalLength st.vlen.toNat →
    exec .init st = .next t →
    exec .init t = .next { t with errcode := 1, errlen := 0 } ∧ t.ready = true

/-- `INIT` issued at once after reset fails with code 1 and length 0 (R151). -/
def Obligations.InitAtOnceAfterResetFails : Prop :=
  exec .init State.reset = .next { State.reset with errcode := 1, errlen := 0 }

/-! ### START, XFER and RDOUT (41_keystream_transform.md) -/

/-- `START` is the word `0x10002`. With an instance it writes `j <- 0`, reports success, and touches nothing else; without one it fails with code 3 and
changes nothing else (R90). -/
def Obligations.StartOpensCall : Prop :=
  decode 0x10002 = .start
  ∧ ∀ st : State,
    (st.ready = true → exec .start st = .next { st with j := 0x00, errcode := 0, errlen := 0 })
    ∧ (st.ready = false → exec .start st = .next { st with errcode := 3, errlen := 0 })

/-- `XFER b` is the word `0x10600 | b`. With an instance it is one generation step, written out entry by entry: the new `s`, the keystream byte taken before
the swap with the new `s`, the swap of `P[j]` with `P[s]`, the advance of `j`; `DOUT` is `b xor k`; nothing else changes. Without
an instance it fails with code 3 and changes nothing else (R91, R92). -/
def Obligations.XferTransformsOneByte : Prop :=
  ∀ (b : Byte) (st : State),
    decode (0x10600#17 ||| b.setWidth 17) = .xfer b
    ∧ (st.ready = true →
      let s' := tableRead st.P (st.s + tableRead st.P st.j)
      let k := tableRead st.P (tableRead st.P (tableRead st.P s') + 1)
      ∃ t, exec (.xfer b) st = .next t
        ∧ (∀ x, tableRead t.P x =
            if x = st.j then tableRead st.P s' else if x = s' then tableRead st.P st.j else tableRead st.P x)
        ∧ t = { st with P := t.P, s := s', j := st.j + 1, dout := b ^^^ k, errcode := 0, errlen := 0 })
    ∧ (st.ready = false → exec (.xfer b) st = .next { st with errcode := 3, errlen := 0 })

/-- Before the first successful `INIT` no sequence of `START`, `XFER` and `RDOUT` operations moves the cipher state or lets a
byte out: every `XFER` fails, and every `RDOUT` returns what `DOUT` held before (R134). -/
def Obligations.NoBytesWithoutInstance : Prop :=
  ∀ (is : List Instr) (st : State), st.ready = false →
    (∀ i ∈ is, i = .start ∨ i = .rdout ∨ ∃ b, i = .xfer b) →
    (∃ t, runOps is st = .next t
      ∧ t = { st with errcode := t.errcode, errlen := t.errlen, rdata := t.rdata }
      ∧ ((∃ i ∈ is, i ≠ .rdout) → t.errcode = 3 ∧ t.errlen = 0))
    ∧ ∀ d ∈ bytesRead is st, d = st.dout

/-- `RDOUT`, whose word is `0x00700` with any `D`, returns `DOUT` and changes nothing, with or without an instance (R93). -/
def Obligations.RdoutReturnsOutputByte : Prop :=
  ∀ (d : Byte) (st : State),
    decode (0x00700#17 ||| d.setWidth 17) = .rdout
    ∧ exec .rdout st = .next { st with rdata := some st.dout }

/-! ### Status reads and fall-back accesses (42_host_register_access.md) -/

/-- `RDSTATUS`, whose word is `0x00100` with any `D`, returns `READY` in bit 0, 1 in bit 1 exactly when `ERRCODE` is not 0, and 0 in every other bit; it changes
nothing (R110). -/
def Obligations.RdstatusReturnsStatusView : Prop :=
  ∀ (d : Byte) (st : State), ∃ v : Byte,
    decode (0x00100#17 ||| d.setWidth 17) = .rdstatus
    ∧ exec .rdstatus st = .next { st with rdata := some v }
    ∧ v.getLsbD 0 = st.ready
    ∧ (v.getLsbD 1 = true ↔ st.errcode ≠ 0)
    ∧ ∀ n, 2 ≤ n → v.getLsbD n = false

/-- `RDERR`, `RDERRLEN`, `RDKLEN` and `RDVLEN`, whose words are `0x00200` to `0x00500` with any `D`, return their register and change nothing (R111 to R114). -/
def Obligations.ResultAndLengthReads : Prop :=
  ∀ (d : Byte) (st : State),
    decode (0x00200#17 ||| d.setWidth 17) = .rderr
    ∧ decode (0x00300#17 ||| d.setWidth 17) = .rderrlen
    ∧ decode (0x00400#17 ||| d.setWidth 17) = .rdklen
    ∧ decode (0x00500#17 ||| d.setWidth 17) = .rdvlen
    ∧ exec .rderr st = .next { st with rdata := some st.errcode }
    ∧ exec .rderrlen st = .next { st with rdata := some st.errlen }
    ∧ exec .rdklen st = .next { st with rdata := some st.klen }
    ∧ exec .rdvlen st = .next { st with rdata := some st.vlen }

/-- A read of `CMD`, of `DIN` or of an address from `0x08` up is `RD.RAZ a`: it returns `0x00` and changes nothing (R115). -/
def Obligations.ReadOfWriteOnlyOrReservedIsZero : Prop :=
  ∀ (a d : Byte) (st : State),
    (a = 0x00 ∨ a = 0x06 ∨ 0x08 ≤ a.toNat → decode (0#1 ++ a ++ d) = .rdRaz a)
    ∧ exec (.rdRaz a) st = .next { st with rdata := some 0x00 }

/-- A write to a read-only or reserved address is `WR.IGN a, d`, and changes no state (R116). -/
def Obligations.WriteToReadOnlyOrReservedIsIgnored : Prop :=
  ∀ (a d : Byte) (st : State),
    (a = 0x01 ∨ a = 0x02 ∨ a = 0x03 ∨ a = 0x07 ∨ (0x08 ≤ a.toNat ∧ a.toNat ≤ 0x3F) ∨ 0xC0 ≤ a.toNat →
      decode (1#1 ++ a ++ d) = .wrIgn a d)
    ∧ exec (.wrIgn a d) st = .next st

/-- A write to `CMD` of a value other than 1 and 2 is `CMD.RSVD`: it fails with code 4 and changes nothing else (R117). -/
def Obligations.ReservedCommandFails : Prop :=
  ∀ (d : Byte) (st : State),
    (d ≠ 0x01 → d ≠ 0x02 → decode (0x10000#17 ||| d.setWidth 17) = .cmdRsvd d)
    ∧ exec (.cmdRsvd d) st = .next { st with errcode := 4, errlen := 0 }

/-- A read may be inserted anywhere in a sequence of operations: the others do and return what they would have done and
returned without it (R118, the spec's own derivation from R93 and R110 to R115). -/
def Obligations.ReadsMayBeInsertedAnywhere : Prop :=
  ∀ (before after : List Instr) (i : Instr) (st : State), i.isWrite = false →
    ∃ v t t',
      responses (before ++ i :: after) st
        = responses before st ++ some v :: (responses (before ++ after) st).drop before.length
      ∧ runOps (before ++ i :: after) st = .next t
      ∧ runOps (before ++ after) st = .next t'
      ∧ t = { t' with rdata := t.rdata }

/-! ### Errors (60_exceptions.md) -/

/-- A command operation that meets an error changes no state but the two result registers (R130); what they then hold is
`ErrorCausesAndCodes`. -/
def Obligations.FailedCommandChangesOnlyResult : Prop :=
  ∀ (i : Instr) (st t : State), i.isCommand = true → exec i st = .next t → t.errcode ≠ 0 →
    t = { st with errcode := t.errcode, errlen := t.errlen }

/-- Every code, the operation that raises it, its condition and what `ERRLEN` records; no other operation writes either
register (R131). -/
def Obligations.ErrorCausesAndCodes : Prop :=
  ∀ (i : Instr) (st t : State), exec i st = .next t →
    (i.isCommand = false → t.errcode = st.errcode ∧ t.errlen = st.errlen)
    ∧ (i.isCommand = true →
        (t.errcode = 1 ↔ i = .init ∧ ¬ LegalLength st.klen.toNat)
        ∧ (t.errcode = 2 ↔ i = .init ∧ LegalLength st.klen.toNat ∧ ¬ LegalLength st.vlen.toNat)
        ∧ (t.errcode = 3 ↔ (i = .start ∨ ∃ b, i = .xfer b) ∧ st.ready = false)
        ∧ (t.errcode = 4 ↔ ∃ d, i = .cmdRsvd d)
        ∧ t.errcode.toNat ≤ 4
        ∧ t.errlen = if t.errcode = 1 then st.klen else if t.errcode = 2 then st.vlen else 0)

/-! ### Whole-machine rules (10_state.md) -/

/-- Each piece of state is written only by the operations the summary table of 10_state.md section 8 lists for it. -/
def Obligations.StateWrittenOnlyByListedOperations : Prop :=
  ∀ (i : Instr) (st t : State), exec i st = .next t →
    (t.P ≠ st.P → i = .init ∨ ∃ b, i = .xfer b)
    ∧ (t.s ≠ st.s → i = .init ∨ ∃ b, i = .xfer b)
    ∧ (t.j ≠ st.j → i = .init ∨ i = .start ∨ ∃ b, i = .xfer b)
    ∧ (t.ready ≠ st.ready → i = .init)
    ∧ (t.key ≠ st.key → i = .init ∨ ∃ x b, i = .ldkey x b)
    ∧ (t.iv ≠ st.iv → i = .init ∨ ∃ x b, i = .ldiv x b)
    ∧ (t.klen ≠ st.klen → i = .init ∨ ∃ n, i = .setklen n)
    ∧ (t.vlen ≠ st.vlen → i = .init ∨ ∃ n, i = .setvlen n)
    ∧ (t.dout ≠ st.dout → i = .init ∨ ∃ b, i = .xfer b)
    ∧ (t.errcode ≠ st.errcode ∨ t.errlen ≠ st.errlen → i.isCommand = true)
    ∧ t.pending = st.pending

/-- The table stays a permutation: every step, from every state whose table is one, leaves one (R11). -/
def Obligations.EveryStepKeepsPermutation : Prop :=
  ∀ st t : State, IsPermutation st.P → step st = .next t → IsPermutation t.P

/-- `ERRCODE` and `ERRLEN` stay within what R19, R20, R131 and R134 allow together. -/
def Obligations.EveryStepKeepsResultLegal : Prop :=
  ∀ st t : State, ResultLegal st → step st = .next t → ResultLegal t

/-- Until a first successful `INIT` the cipher state and the output byte stay those of reset (R14, R97, R134). -/
def Obligations.EveryStepKeepsNoInstanceYet : Prop :=
  ∀ st t : State, NoInstanceYet st → step st = .next t → NoInstanceYet t

/-- The reset state meets the three invariants. -/
def Obligations.ResetMeetsInvariants : Prop :=
  IsPermutation State.reset.P ∧ ResultLegal State.reset ∧ NoInstanceYet State.reset

/-- `READY` is set only by an `INIT` with legal lengths and cleared only by hardware reset (R14, R97, R150). -/
def Obligations.ReadySetByInitClearedByReset : Prop :=
  ∀ st t : State, step st = .next t → t.ready ≠ st.ready →
    (t.ready = true ∧ ∃ w rest, st.pending = .operation w :: rest ∧ decode w = .init
      ∧ LegalLength st.klen.toNat ∧ LegalLength st.vlen.toNat)
    ∨ (t.ready = false ∧ ∃ rest, st.pending = .hardwareReset :: rest)

/-- `P`, `s` and `j` do not show: an operation other than `XFER` returns the same byte and leaves all other state the same
whatever the three hold (R27). -/
def Obligations.CipherStateShowsOnlyThroughXfer : Prop :=
  ∀ (i : Instr) (st : State) (P : Table) (s j : Byte), (∀ b, i ≠ .xfer b) →
    ∃ t P' s' j', exec i st = .next t
      ∧ exec i { st with P := P, s := s, j := j } = .next { t with P := P', s := s', j := j' }

/-- Key and IV bytes do not show: an operation other than `INIT` returns the same byte and leaves all other state the same
whatever the two buffers hold (R15, R16, R115). -/
def Obligations.KeyMaterialUsedOnlyByInit : Prop :=
  ∀ (i : Instr) (st : State) (key iv : Buffer), i ≠ .init →
    ∃ t key' iv', exec i st = .next t
      ∧ exec i { st with key := key, iv := iv } = .next { t with key := key', iv := iv' }

/-! ### The engine and the source's cipher (00_scope.md R9; 41_keystream_transform.md section 2) -/

/-- The image of `initialize(key, iv)`: from any state, with lengths the registers can state, it constructs exactly the source's
instance when both lengths are legal, and otherwise reports the parameter and its length and leaves the cipher state and
`READY` as they were (R9, R74, R152). -/
def Obligations.InitializeImageIsSourceConstruction : Prop :=
  ∀ (st : State) (key iv : List Byte), key.length ≤ 255 → iv.length ≤ 255 →
    ∃ t, runOps (initializeOps key iv) st = .next t
      ∧ (LegalLength key.length → LegalLength iv.length →
          let c := softConstruct (cyclicByte key) (cyclicByte iv)
          (∀ x, tableRead t.P x = c.P x) ∧ t.s = c.s
          ∧ t = { State.reset with P := t.P, s := t.s, ready := true, pending := st.pending })
      ∧ (¬ LegalLength key.length →
          t.errcode = 1 ∧ t.errlen.toNat = key.length
          ∧ t.P = st.P ∧ t.s = st.s ∧ t.j = st.j ∧ t.ready = st.ready ∧ t.dout = st.dout)
      ∧ (LegalLength key.length → ¬ LegalLength iv.length →
          t.errcode = 2 ∧ t.errlen.toNat = iv.length
          ∧ t.P = st.P ∧ t.s = st.s ∧ t.j = st.j ∧ t.ready = st.ready ∧ t.dout = st.dout)

/-- A call does to `P` and `s`, and produces as the sequence of `DOUT` values, exactly what the source's `transform(dst, src)`
does to `(P, s)` and writes to `dst` (R94). -/
def Obligations.CallIsSourceTransform : Prop :=
  ∀ (st : State) (src : List Byte), st.ready = true →
    ∃ t, runOps (transformOps src) st = .next t
      ∧ bytesRead (transformOps src) st = (softTransform (softOf st) src).2
      ∧ (∀ x, tableRead t.P x = (softTransform (softOf st) src).1.P x)
      ∧ t.s = (softTransform (softOf st) src).1.s
      ∧ t.j = BitVec.ofNat 8 src.length
      ∧ t = { st with
          P := t.P, s := t.s, j := t.j, dout := t.dout, errcode := 0, errlen := 0, rdata := t.rdata }

/-- Two calls equal one call over the same bytes when the first one's length is a multiple of 256: the same bytes come back, and
the states at the end differ at most in `rdata` (R94 b; assumption log 2). -/
def Obligations.CallsSplitAtMultipleOf256 : Prop :=
  ∀ (st : State) (src src' : List Byte), st.ready = true → src.length % 256 = 0 →
    ∃ t t',
      bytesRead (transformOps src ++ transformOps src') st = bytesRead (transformOps (src ++ src')) st
      ∧ runOps (transformOps src ++ transformOps src') st = .next t
      ∧ runOps (transformOps (src ++ src')) st = .next t'
      ∧ t = { t' with rdata := t.rdata }

/-- Within a call the host may read any register and load a new key and IV between two bytes: the call continues as if it had
not (R94 a). -/
def Obligations.NonCommandsDoNotDisturbACall : Prop :=
  ∀ (is : List Instr) (st : State) (src : List Byte), (∀ i ∈ is, i.isCommand = false) →
    ∃ t, runOps is st = .next t
      ∧ t.P = st.P ∧ t.s = st.s ∧ t.j = st.j ∧ t.ready = st.ready ∧ t.dout = st.dout
      ∧ t.errcode = st.errcode ∧ t.errlen = st.errlen
      ∧ bytesRead (continueOps src) t = bytesRead (continueOps src) st

/-- Decryption is encryption: a sequence of `START` and `XFER` operations, given its own outputs in place of its data from the
same cipher state, produces the data back (R95). -/
def Obligations.DecryptionMirrorsEncryption : Prop :=
  ∀ (cs : List (Option Byte)) (st st' : State), st.ready = true → st'.ready = true →
    st'.P = st.P → st'.s = st.s → st'.j = st.j →
    callOutputs (callOutputs cs st) st' = cs

/-- The keystream does not depend on the data: two sequences that differ only in the bytes given to `XFER` leave all state but
`DOUT` and the byte last returned the same, and have the same keystream (R96). -/
def Obligations.KeystreamIndependentOfData : Prop :=
  (∀ (is is' : List Instr) (st : State), List.Forall₂ SameButData is is' →
    ∃ t t', runOps is st = .next t ∧ runOps is' st = .next t'
      ∧ t' = { t with dout := t'.dout, rdata := t'.rdata })
  ∧ ∀ (bs bs' : List Byte) (st : State), st.ready = true → bs.length = bs'.length →
      List.zipWith (· ^^^ ·) bs (bytesRead (continueOps bs) st)
        = List.zipWith (· ^^^ ·) bs' (bytesRead (continueOps bs') st)

/-- The source's self-inverse property, on two engines in any earlier state: initialise both with one legal key and IV, encrypt
`m` on the first, give the second the result, and it returns `m` (95_test_vectors.md P2; R95). -/
def Obligations.EncryptThenDecryptReturnsMessage : Prop :=
  ∀ (st st' : State) (key iv m : List Byte), LegalLength key.length → LegalLength iv.length →
    bytesRead (initializeOps key iv
        ++ transformOps (bytesRead (initializeOps key iv ++ transformOps m) st)) st' = m
end

