-- ==== Sys2Proof/Laws/State.lean ====
section
/-! SUPPORT. What each field holds after each named update of the state: one lemma per field per update, so that no proof
unfolds an update. -/

namespace Sys2Proof.Machine

/-! ### `setResult` -/

@[simp] theorem setResult_P (code : ErrCode) (len : Byte) (st : State) :
    (setResult code len st).P = st.P := rfl
@[simp] theorem setResult_s (code : ErrCode) (len : Byte) (st : State) :
    (setResult code len st).s = st.s := rfl
@[simp] theorem setResult_j (code : ErrCode) (len : Byte) (st : State) :
    (setResult code len st).j = st.j := rfl
@[simp] theorem setResult_ready (code : ErrCode) (len : Byte) (st : State) :
    (setResult code len st).ready = st.ready := rfl
@[simp] theorem setResult_key (code : ErrCode) (len : Byte) (st : State) :
    (setResult code len st).key = st.key := rfl
@[simp] theorem setResult_iv (code : ErrCode) (len : Byte) (st : State) :
    (setResult code len st).iv = st.iv := rfl
@[simp] theorem setResult_klen (code : ErrCode) (len : Byte) (st : State) :
    (setResult code len st).klen = st.klen := rfl
@[simp] theorem setResult_vlen (code : ErrCode) (len : Byte) (st : State) :
    (setResult code len st).vlen = st.vlen := rfl
@[simp] theorem setResult_dout (code : ErrCode) (len : Byte) (st : State) :
    (setResult code len st).dout = st.dout := rfl
@[simp] theorem setResult_errcode (code : ErrCode) (len : Byte) (st : State) :
    (setResult code len st).errcode = errNumber code := rfl
@[simp] theorem setResult_errlen (code : ErrCode) (len : Byte) (st : State) :
    (setResult code len st).errlen = len := rfl
@[simp] theorem setResult_rdata (code : ErrCode) (len : Byte) (st : State) :
    (setResult code len st).rdata = st.rdata := rfl
@[simp] theorem setResult_pending (code : ErrCode) (len : Byte) (st : State) :
    (setResult code len st).pending = st.pending := rfl

/-! ### `returnByte` -/

@[simp] theorem returnByte_P (v : Byte) (st : State) :
    (returnByte v st).P = st.P := rfl
@[simp] theorem returnByte_s (v : Byte) (st : State) :
    (returnByte v st).s = st.s := rfl
@[simp] theorem returnByte_j (v : Byte) (st : State) :
    (returnByte v st).j = st.j := rfl
@[simp] theorem returnByte_ready (v : Byte) (st : State) :
    (returnByte v st).ready = st.ready := rfl
@[simp] theorem returnByte_key (v : Byte) (st : State) :
    (returnByte v st).key = st.key := rfl
@[simp] theorem returnByte_iv (v : Byte) (st : State) :
    (returnByte v st).iv = st.iv := rfl
@[simp] theorem returnByte_klen (v : Byte) (st : State) :
    (returnByte v st).klen = st.klen := rfl
@[simp] theorem returnByte_vlen (v : Byte) (st : State) :
    (returnByte v st).vlen = st.vlen := rfl
@[simp] theorem returnByte_dout (v : Byte) (st : State) :
    (returnByte v st).dout = st.dout := rfl
@[simp] theorem returnByte_errcode (v : Byte) (st : State) :
    (returnByte v st).errcode = st.errcode := rfl
@[simp] theorem returnByte_errlen (v : Byte) (st : State) :
    (returnByte v st).errlen = st.errlen := rfl
@[simp] theorem returnByte_rdata (v : Byte) (st : State) :
    (returnByte v st).rdata = some v := rfl
@[simp] theorem returnByte_pending (v : Byte) (st : State) :
    (returnByte v st).pending = st.pending := rfl

/-! ### `acceptOperation` -/

@[simp] theorem acceptOperation_P (rest : List PortEvent) (st : State) :
    (acceptOperation rest st).P = st.P := rfl
@[simp] theorem acceptOperation_s (rest : List PortEvent) (st : State) :
    (acceptOperation rest st).s = st.s := rfl
@[simp] theorem acceptOperation_j (rest : List PortEvent) (st : State) :
    (acceptOperation rest st).j = st.j := rfl
@[simp] theorem acceptOperation_ready (rest : List PortEvent) (st : State) :
    (acceptOperation rest st).ready = st.ready := rfl
@[simp] theorem acceptOperation_key (rest : List PortEvent) (st : State) :
    (acceptOperation rest st).key = st.key := rfl
@[simp] theorem acceptOperation_iv (rest : List PortEvent) (st : State) :
    (acceptOperation rest st).iv = st.iv := rfl
@[simp] theorem acceptOperation_klen (rest : List PortEvent) (st : State) :
    (acceptOperation rest st).klen = st.klen := rfl
@[simp] theorem acceptOperation_vlen (rest : List PortEvent) (st : State) :
    (acceptOperation rest st).vlen = st.vlen := rfl
@[simp] theorem acceptOperation_dout (rest : List PortEvent) (st : State) :
    (acceptOperation rest st).dout = st.dout := rfl
@[simp] theorem acceptOperation_errcode (rest : List PortEvent) (st : State) :
    (acceptOperation rest st).errcode = st.errcode := rfl
@[simp] theorem acceptOperation_errlen (rest : List PortEvent) (st : State) :
    (acceptOperation rest st).errlen = st.errlen := rfl
@[simp] theorem acceptOperation_rdata (rest : List PortEvent) (st : State) :
    (acceptOperation rest st).rdata = none := rfl
@[simp] theorem acceptOperation_pending (rest : List PortEvent) (st : State) :
    (acceptOperation rest st).pending = rest := rfl

/-! ### `installCipher` -/

@[simp] theorem installCipher_P (c : Cipher) (st : State) :
    (installCipher c st).P = c.P := rfl
@[simp] theorem installCipher_s (c : Cipher) (st : State) :
    (installCipher c st).s = c.s := rfl
@[simp] theorem installCipher_j (c : Cipher) (st : State) :
    (installCipher c st).j = st.j := rfl
@[simp] theorem installCipher_ready (c : Cipher) (st : State) :
    (installCipher c st).ready = st.ready := rfl
@[simp] theorem installCipher_key (c : Cipher) (st : State) :
    (installCipher c st).key = st.key := rfl
@[simp] theorem installCipher_iv (c : Cipher) (st : State) :
    (installCipher c st).iv = st.iv := rfl
@[simp] theorem installCipher_klen (c : Cipher) (st : State) :
    (installCipher c st).klen = st.klen := rfl
@[simp] theorem installCipher_vlen (c : Cipher) (st : State) :
    (installCipher c st).vlen = st.vlen := rfl
@[simp] theorem installCipher_dout (c : Cipher) (st : State) :
    (installCipher c st).dout = st.dout := rfl
@[simp] theorem installCipher_errcode (c : Cipher) (st : State) :
    (installCipher c st).errcode = st.errcode := rfl
@[simp] theorem installCipher_errlen (c : Cipher) (st : State) :
    (installCipher c st).errlen = st.errlen := rfl
@[simp] theorem installCipher_rdata (c : Cipher) (st : State) :
    (installCipher c st).rdata = st.rdata := rfl
@[simp] theorem installCipher_pending (c : Cipher) (st : State) :
    (installCipher c st).pending = st.pending := rfl

/-! ### `openInstance` -/

@[simp] theorem openInstance_P (st : State) :
    (openInstance st).P = st.P := rfl
@[simp] theorem openInstance_s (st : State) :
    (openInstance st).s = st.s := rfl
@[simp] theorem openInstance_j (st : State) :
    (openInstance st).j = 0x00 := rfl
@[simp] theorem openInstance_ready (st : State) :
    (openInstance st).ready = true := rfl
@[simp] theorem openInstance_key (st : State) :
    (openInstance st).key = st.key := rfl
@[simp] theorem openInstance_iv (st : State) :
    (openInstance st).iv = st.iv := rfl
@[simp] theorem openInstance_klen (st : State) :
    (openInstance st).klen = st.klen := rfl
@[simp] theorem openInstance_vlen (st : State) :
    (openInstance st).vlen = st.vlen := rfl
@[simp] theorem openInstance_dout (st : State) :
    (openInstance st).dout = 0x00 := rfl
@[simp] theorem openInstance_errcode (st : State) :
    (openInstance st).errcode = st.errcode := rfl
@[simp] theorem openInstance_errlen (st : State) :
    (openInstance st).errlen = st.errlen := rfl
@[simp] theorem openInstance_rdata (st : State) :
    (openInstance st).rdata = st.rdata := rfl
@[simp] theorem openInstance_pending (st : State) :
    (openInstance st).pending = st.pending := rfl

/-! ### `zeroise` -/

@[simp] theorem zeroise_P (st : State) :
    (zeroise st).P = st.P := rfl
@[simp] theorem zeroise_s (st : State) :
    (zeroise st).s = st.s := rfl
@[simp] theorem zeroise_j (st : State) :
    (zeroise st).j = st.j := rfl
@[simp] theorem zeroise_ready (st : State) :
    (zeroise st).ready = st.ready := rfl
@[simp] theorem zeroise_key (st : State) :
    (zeroise st).key = zeroBuffer := rfl
@[simp] theorem zeroise_iv (st : State) :
    (zeroise st).iv = zeroBuffer := rfl
@[simp] theorem zeroise_klen (st : State) :
    (zeroise st).klen = 0 := rfl
@[simp] theorem zeroise_vlen (st : State) :
    (zeroise st).vlen = 0 := rfl
@[simp] theorem zeroise_dout (st : State) :
    (zeroise st).dout = st.dout := rfl
@[simp] theorem zeroise_errcode (st : State) :
    (zeroise st).errcode = st.errcode := rfl
@[simp] theorem zeroise_errlen (st : State) :
    (zeroise st).errlen = st.errlen := rfl
@[simp] theorem zeroise_rdata (st : State) :
    (zeroise st).rdata = st.rdata := rfl
@[simp] theorem zeroise_pending (st : State) :
    (zeroise st).pending = st.pending := rfl

/-! ### `emitByte` -/

@[simp] theorem emitByte_P (b : Byte) (g : GenResult) (st : State) :
    (emitByte b g st).P = g.P := rfl
@[simp] theorem emitByte_s (b : Byte) (g : GenResult) (st : State) :
    (emitByte b g st).s = g.s := rfl
@[simp] theorem emitByte_j (b : Byte) (g : GenResult) (st : State) :
    (emitByte b g st).j = g.j := rfl
@[simp] theorem emitByte_ready (b : Byte) (g : GenResult) (st : State) :
    (emitByte b g st).ready = st.ready := rfl
@[simp] theorem emitByte_key (b : Byte) (g : GenResult) (st : State) :
    (emitByte b g st).key = st.key := rfl
@[simp] theorem emitByte_iv (b : Byte) (g : GenResult) (st : State) :
    (emitByte b g st).iv = st.iv := rfl
@[simp] theorem emitByte_klen (b : Byte) (g : GenResult) (st : State) :
    (emitByte b g st).klen = st.klen := rfl
@[simp] theorem emitByte_vlen (b : Byte) (g : GenResult) (st : State) :
    (emitByte b g st).vlen = st.vlen := rfl
@[simp] theorem emitByte_dout (b : Byte) (g : GenResult) (st : State) :
    (emitByte b g st).dout = b ^^^ g.k := rfl
@[simp] theorem emitByte_errcode (b : Byte) (g : GenResult) (st : State) :
    (emitByte b g st).errcode = st.errcode := rfl
@[simp] theorem emitByte_errlen (b : Byte) (g : GenResult) (st : State) :
    (emitByte b g st).errlen = st.errlen := rfl
@[simp] theorem emitByte_rdata (b : Byte) (g : GenResult) (st : State) :
    (emitByte b g st).rdata = st.rdata := rfl
@[simp] theorem emitByte_pending (b : Byte) (g : GenResult) (st : State) :
    (emitByte b g st).pending = st.pending := rfl

/-! ### `hardwareReset`: the state after reset, with the events still to come -/

@[simp] theorem hardwareReset_P (rest : List PortEvent) :
    (hardwareReset rest).P = State.reset.P := rfl
@[simp] theorem hardwareReset_s (rest : List PortEvent) :
    (hardwareReset rest).s = State.reset.s := rfl
@[simp] theorem hardwareReset_j (rest : List PortEvent) :
    (hardwareReset rest).j = State.reset.j := rfl
@[simp] theorem hardwareReset_ready (rest : List PortEvent) :
    (hardwareReset rest).ready = State.reset.ready := rfl
@[simp] theorem hardwareReset_key (rest : List PortEvent) :
    (hardwareReset rest).key = State.reset.key := rfl
@[simp] theorem hardwareReset_iv (rest : List PortEvent) :
    (hardwareReset rest).iv = State.reset.iv := rfl
@[simp] theorem hardwareReset_klen (rest : List PortEvent) :
    (hardwareReset rest).klen = State.reset.klen := rfl
@[simp] theorem hardwareReset_vlen (rest : List PortEvent) :
    (hardwareReset rest).vlen = State.reset.vlen := rfl
@[simp] theorem hardwareReset_dout (rest : List PortEvent) :
    (hardwareReset rest).dout = State.reset.dout := rfl
@[simp] theorem hardwareReset_errcode (rest : List PortEvent) :
    (hardwareReset rest).errcode = State.reset.errcode := rfl
@[simp] theorem hardwareReset_errlen (rest : List PortEvent) :
    (hardwareReset rest).errlen = State.reset.errlen := rfl
@[simp] theorem hardwareReset_rdata (rest : List PortEvent) :
    (hardwareReset rest).rdata = State.reset.rdata := rfl
@[simp] theorem hardwareReset_pending (rest : List PortEvent) :
    (hardwareReset rest).pending = rest := rfl

/-! ### The reset values (R26) -/

@[simp] theorem reset_P : State.reset.P = identityTable := rfl
@[simp] theorem reset_s : State.reset.s = 0x00 := rfl
@[simp] theorem reset_j : State.reset.j = 0x00 := rfl
@[simp] theorem reset_ready : State.reset.ready = false := rfl
@[simp] theorem reset_key : State.reset.key = zeroBuffer := rfl
@[simp] theorem reset_iv : State.reset.iv = zeroBuffer := rfl
@[simp] theorem reset_klen : State.reset.klen = 0 := rfl
@[simp] theorem reset_vlen : State.reset.vlen = 0 := rfl
@[simp] theorem reset_dout : State.reset.dout = 0x00 := rfl
@[simp] theorem reset_errcode : State.reset.errcode = 0 := rfl
@[simp] theorem reset_errlen : State.reset.errlen = 0 := rfl
@[simp] theorem reset_rdata : State.reset.rdata = none := rfl
@[simp] theorem reset_pending : State.reset.pending = [] := rfl

end Sys2Proof.Machine
end

