-- ==== Sys2Proof/Laws/Ops.lean ====
section
/-! SUPPORT. One lemma for each shared operation: what it does, for later proofs to cite in place of unfolding it. -/

namespace Sys2Proof.Machine

open Sys2Proof.Safety

/-! ### Stores of bytes -/

/-- Two stores that read the same everywhere are equal: a store has one form. -/
theorem bytes_ext {n : Nat} {m m' : Bytes n} (h : ∀ x, readAt m x = readAt m' x) : m = m' := by
  cases m with
  | mk e he =>
    cases m' with
    | mk e' he' =>
      have : e = e' := List.ext_getElem (by rw [he, he']) fun i hi _ => h ⟨i, he ▸ hi⟩
      subst this
      rfl

/-- A read after a write: the value written at that entry, the old one at every other. -/
theorem readAt_writeAt {n : Nat} (m : Bytes n) (x y : Fin n) (v : Byte) :
    readAt (writeAt m x v) y = if y = x then v else readAt m y := by
  simp only [readAt, writeAt, List.getElem_set, Fin.ext_iff]
  by_cases h : x.val = y.val <;> simp [h, eq_comm]

@[simp] theorem readAt_writeAt_same {n : Nat} (m : Bytes n) (x : Fin n) (v : Byte) :
    readAt (writeAt m x v) x = v := by
  rw [readAt_writeAt, if_pos rfl]

/-- The later of two writes to one entry wins (R72). -/
theorem writeAt_writeAt_same {n : Nat} (m : Bytes n) (x : Fin n) (v w : Byte) :
    writeAt (writeAt m x v) x w = writeAt m x w := by
  simp [writeAt]

@[simp] theorem readAt_zeroBuffer (x : Fin 64) : readAt zeroBuffer x = 0x00 :=
  List.getElem_replicate ..

/-- The model's read of a buffer byte is the byte the claims speak of. -/
theorem readAt_eq_bufferByte (M : Buffer) (x : Fin 64) : readAt M x = bufferByte M x.val := by
  have h : x.val < M.entries.length := by rw [M.length_eq]; exact x.isLt
  simp [readAt, bufferByte, h]

/-! ### The table -/

theorem table_ext {P P' : Table} (h : ∀ x, tableRead P x = tableRead P' x) : P = P' :=
  bytes_ext fun x => h ⟨x⟩

@[simp] theorem tableRead_identityTable (x : Byte) : tableRead identityTable x = x := by
  simp [tableRead, readAt, identityTable]

theorem tableRead_tableWrite (P : Table) (a x v : Byte) :
    tableRead (tableWrite P a v) x = if x = a then v else tableRead P x := by
  simp only [tableRead, tableWrite, readAt_writeAt]
  congr 1
  exact propext ⟨fun h => BitVec.eq_of_toFin_eq h, fun h => h ▸ rfl⟩

/-- What a swap does to each entry (R6). -/
theorem tableRead_tableSwap (P : Table) (a b x : Byte) :
    tableRead (tableSwap P a b) x
      = if x = a then tableRead P b else if x = b then tableRead P a else tableRead P x := by
  simp only [tableSwap, tableRead_tableWrite]
  by_cases ha : x = a <;> by_cases hb : x = b <;> simp_all

/-! ### Results and the port -/

/-- Failing touches only the two result registers (R130). -/
theorem failWith_eq (code : ErrCode) (len : Byte) (st : State) :
    failWith code len st = { st with errcode := errNumber code, errlen := len } := rfl

/-- Succeeding touches only the two result registers (R131). -/
theorem succeed_eq (st : State) : succeed st = { st with errcode := 0, errlen := 0 } := rfl

/-! ### The length check -/

theorem legalLength_of_legal {n : Byte} (h : LegalLength n.toNat) : legalLength n = some ⟨n.toNat, h⟩ :=
  dif_pos h

theorem legalLength_of_illegal {n : Byte} (h : ¬ LegalLength n.toNat) : legalLength n = none :=
  dif_neg h

/-- Everything the length check can answer (R75). -/
theorem lengthCheck_cases (klen vlen : Byte) :
    (¬ LegalLength klen.toNat ∧ lengthCheck klen vlen = .error (.invalidKeySize, klen))
    ∨ (LegalLength klen.toNat ∧ ¬ LegalLength vlen.toNat
        ∧ lengthCheck klen vlen = .error (.invalidIvSize, vlen))
    ∨ ∃ (hk : LegalLength klen.toNat) (hv : LegalLength vlen.toNat),
        lengthCheck klen vlen = .ok (⟨klen.toNat, hk⟩, ⟨vlen.toNat, hv⟩) := by
  by_cases hk : LegalLength klen.toNat
  · by_cases hv : LegalLength vlen.toNat
    · exact .inr (.inr ⟨hk, hv, by
        simp only [lengthCheck, legalLength_of_legal hk, legalLength_of_legal hv]⟩)
    · exact .inr (.inl ⟨hk, hv, by
        simp only [lengthCheck, legalLength_of_legal hk, legalLength_of_illegal hv]⟩)
  · exact .inl ⟨hk, by simp only [lengthCheck, legalLength_of_illegal hk]⟩

/-! ### Schedule and generation steps -/

/-- The new `s` of a schedule step is looked up in the table before the swap (R76). -/
theorem scheduleStep_s (M : Buffer) (mlen : MsgLen) (c : Cipher) (i : Nat) :
    (scheduleStep M mlen c i).s
      = tableRead c.P (c.s + tableRead c.P (schedIdx i) + readAt M (msgSlot mlen i)) := rfl

/-- The table after a schedule step: `P[idx]` swapped with the entry at the new `s` (R76). -/
theorem scheduleStep_P (M : Buffer) (mlen : MsgLen) (c : Cipher) (i : Nat) :
    (scheduleStep M mlen c i).P = tableSwap c.P (schedIdx i) (scheduleStep M mlen c i).s := rfl

/-- The schedule round is its 768 steps (R77). -/
theorem scheduleRound_eq (M : Buffer) (mlen : MsgLen) (c : Cipher) :
    scheduleRound M mlen c = (List.range Config.schedIters).foldl (scheduleStep M mlen) c := by
  unfold scheduleRound
  rfl

/-- The new `s` of a generation step (R92 step 1). -/
theorem genStep_s (P : Table) (s j : Byte) : (genStep P s j).s = tableRead P (s + tableRead P j) := rfl

/-- The keystream byte, from the table before the swap and with the new `s` (R92 step 2). -/
theorem genStep_k (P : Table) (s j : Byte) :
    (genStep P s j).k = tableRead P (tableRead P (tableRead P (genStep P s j).s) + 1) := rfl

/-- The table after a generation step (R92 step 4). -/
theorem genStep_P (P : Table) (s j : Byte) :
    (genStep P s j).P = tableSwap P j (genStep P s j).s := rfl

/-- The index after a generation step (R92 step 5). -/
theorem genStep_j (P : Table) (s j : Byte) : (genStep P s j).j = j + 1 := rfl

/-! ### Meanings with more than one case -/

/-- Everything `INIT` can do (R74). The constructed instance is a variable, so that a proof about the other fields never
meets the schedule rounds. -/
theorem execInit_cases (st : State) :
    (¬ LegalLength st.klen.toNat ∧ execInit st = .next (failWith .invalidKeySize st.klen st))
    ∨ (LegalLength st.klen.toNat ∧ ¬ LegalLength st.vlen.toNat
        ∧ execInit st = .next (failWith .invalidIvSize st.vlen st))
    ∨ ∃ (hk : LegalLength st.klen.toNat) (hv : LegalLength st.vlen.toNat) (c : Cipher),
        c = construct st.key ⟨st.klen.toNat, hk⟩ st.iv ⟨st.vlen.toNat, hv⟩
        ∧ execInit st = .next (succeed (zeroise (openInstance (installCipher c st)))) := by
  unfold execInit
  rcases lengthCheck_cases st.klen st.vlen with ⟨hk, h⟩ | ⟨hk, hv, h⟩ | ⟨hk, hv, h⟩
  · exact .inl ⟨hk, by rw [h]⟩
  · exact .inr (.inl ⟨hk, hv, by rw [h]⟩)
  · exact .inr (.inr ⟨hk, hv, _, rfl, by rw [h]⟩)

theorem execStart_ready {st : State} (h : st.ready = true) :
    execStart st = .next (succeed { st with j := 0x00 }) := by
  simp [execStart, h]

theorem execStart_notReady {st : State} (h : st.ready = false) :
    execStart st = .next (failWith .notReady 0 st) := by
  simp [execStart, h]

theorem execXfer_ready {st : State} (b : Byte) (h : st.ready = true) :
    execXfer b st = .next (succeed (emitByte b (genStep st.P st.s st.j) st)) := by
  simp [execXfer, h]

theorem execXfer_notReady {st : State} (b : Byte) (h : st.ready = false) :
    execXfer b st = .next (failWith .notReady 0 st) := by
  simp [execXfer, h]

end Sys2Proof.Machine
end

