-- ==== Sys2Proof/Laws/Encoding.lean ====
section
/-! SUPPORT. The fields of an operation word written as `W ++ A ++ D`, and what a row's mask and pattern test in each field
(spec/30_encoding.md R50, R53): later proofs about decoding cite these and never count bits. -/

namespace Sys2Proof

/-- The constants of spec/00_scope.md R5 agree with the widths that Lean's types carry. -/
theorem Laws.config_matches_types :
    2 ^ Config.byteW = Config.tableSize ∧ identityTable.entries.length = Config.tableSize
      ∧ zeroBuffer.entries.length = Config.bufSize ∧ Config.bufSize = Config.lenMax
      ∧ 1 + Config.addrW + Config.dataW = Config.opwW ∧ Config.lenW = Config.dataW
      ∧ Config.schedRounds = 2 ∧ Config.nInst = 1 := by
  refine ⟨by decide, identityTable.length_eq, zeroBuffer.length_eq, ?_⟩
  decide

/-- Bit 16 of a word, as a vector of one bit. -/
def opWriteVec (w : OpWord) : BitVec 1 := w.extractLsb' 16 1

@[simp] theorem opData_word (v : BitVec 1) (a d : Byte) : opData (v ++ a ++ d) = d := by
  unfold opData
  rw [BitVec.extractLsb'_append_eq_right]

@[simp] theorem opAddr_word (v : BitVec 1) (a d : Byte) : opAddr (v ++ a ++ d) = a := by
  unfold opAddr
  rw [BitVec.extractLsb'_append_eq_of_le (by omega)]
  exact BitVec.extractLsb'_append_eq_right

@[simp] theorem opWriteVec_word (v : BitVec 1) (a d : Byte) : opWriteVec (v ++ a ++ d) = v := by
  unfold opWriteVec
  rw [BitVec.extractLsb'_append_eq_of_le (by omega), BitVec.extractLsb'_append_eq_of_le (by omega)]
  exact BitVec.extractLsb'_eq_self

/-- Bit 16 is the `W` field. -/
@[simp] theorem opWriteBit_word (v : BitVec 1) (a d : Byte) : opWriteBit (v ++ a ++ d) = (v == 1#1) := by
  have h : opWriteBit (v ++ a ++ d) = (opWriteVec (v ++ a ++ d)).getLsbD 0 := by
    simp [opWriteBit, opWriteVec]
  rw [h, opWriteVec_word]
  clear h
  revert v
  decide

/-- Every word is its three fields. -/
theorem word_eq_fields (w : OpWord) : w = opWriteVec w ++ opAddr w ++ opData w := by
  unfold opWriteVec opAddr opData
  rw [BitVec.extractLsb'_append_extractLsb'_eq_extractLsb' (by rfl),
    BitVec.extractLsb'_append_extractLsb'_eq_extractLsb' (by rfl)]
  exact BitVec.extractLsb'_eq_self.symm

/-- Two words are equal when their fields are. -/
theorem word_inj (v v' : BitVec 1) (a a' d d' : Byte) :
    v ++ a ++ d = v' ++ a' ++ d' ↔ v = v' ∧ a = a' ∧ d = d' := by
  constructor
  · intro h
    exact ⟨by simpa using congrArg opWriteVec h, by simpa using congrArg opAddr h,
      by simpa using congrArg opData h⟩
  · rintro ⟨rfl, rfl, rfl⟩
    rfl

/-- A row's test of a word is a test of each field. -/
theorem takes_word {r : OpRow} {mv pv : BitVec 1} {ma pa md pd : Byte}
    (hm : r.mask = mv ++ ma ++ md) (hp : r.pattern = pv ++ pa ++ pd) (v : BitVec 1) (a d : Byte) :
    r.takes (v ++ a ++ d) = true ↔ v &&& mv = pv ∧ a &&& ma = pa ∧ d &&& md = pd := by
  unfold OpRow.takes
  rw [beq_iff_eq, hm, hp, BitVec.and_append, BitVec.and_append]
  exact word_inj ..

/-- The index field of a word is the low six bits of its address field (R52). -/
@[simp] theorem opIndex_word (v : BitVec 1) (a d : Byte) : opIndex (v ++ a ++ d) = a.setWidth 6 := by
  unfold opIndex
  rw [BitVec.extractLsb'_append_eq_of_le (by omega), BitVec.extractLsb'_append_eq_of_add_le (by omega)]
  revert a
  decide

/-! ### What each row takes, by field (R59, R60) -/

theorem and_one_bit (v : BitVec 1) : v &&& 1#1 = v := by revert v; decide
theorem and_all_bits (a : Byte) : a &&& 0xFF#8 = a := by revert a; decide
theorem and_no_bits (a : Byte) : a &&& 0x00#8 = 0x00#8 := by revert a; decide

/-- The window bits `0b01` are the addresses `0x40` to `0x7F` (R52). -/
theorem keyWindow_iff (a : Byte) : a &&& 0xC0#8 = 0x40#8 ↔ 0x40 ≤ a.toNat ∧ a.toNat ≤ 0x7F := by
  revert a; decide

/-- The window bits `0b10` are the addresses `0x80` to `0xBF` (R52). -/
theorem ivWindow_iff (a : Byte) : a &&& 0xC0#8 = 0x80#8 ↔ 0x80 ≤ a.toNat ∧ a.toNat ≤ 0xBF := by
  revert a; decide

section
variable (v : BitVec 1) (a d : Byte)

theorem rowInit_takes : rowInit.takes (v ++ a ++ d) = true ↔ v = 1#1 ∧ a = 0x00#8 ∧ d = 0x01#8 := by
  rw [takes_word (mv := 1#1) (pv := 1#1) (ma := 0xFF#8) (pa := 0x00#8) (md := 0xFF#8) (pd := 0x01#8) rfl rfl,
    and_one_bit, and_all_bits, and_all_bits]
theorem rowStart_takes : rowStart.takes (v ++ a ++ d) = true ↔ v = 1#1 ∧ a = 0x00#8 ∧ d = 0x02#8 := by
  rw [takes_word (mv := 1#1) (pv := 1#1) (ma := 0xFF#8) (pa := 0x00#8) (md := 0xFF#8) (pd := 0x02#8) rfl rfl,
    and_one_bit, and_all_bits, and_all_bits]

/-- A row whose mask covers `W` and `A` takes one address of one direction. -/
theorem addressRow_takes {r : OpRow} {pv : BitVec 1} {pa : Byte} (hm : r.mask = 1#1 ++ 0xFF#8 ++ 0x00#8)
    (hp : r.pattern = pv ++ pa ++ 0x00#8) : r.takes (v ++ a ++ d) = true ↔ v = pv ∧ a = pa := by
  rw [takes_word hm hp, and_one_bit, and_all_bits, and_no_bits]
  simp

theorem rowCmdRsvd_takes : rowCmdRsvd.takes (v ++ a ++ d) = true ↔ v = 1#1 ∧ a = 0x00#8 :=
  addressRow_takes v a d rfl rfl
theorem rowSetklen_takes : rowSetklen.takes (v ++ a ++ d) = true ↔ v = 1#1 ∧ a = 0x04#8 :=
  addressRow_takes v a d rfl rfl
theorem rowSetvlen_takes : rowSetvlen.takes (v ++ a ++ d) = true ↔ v = 1#1 ∧ a = 0x05#8 :=
  addressRow_takes v a d rfl rfl
theorem rowXfer_takes : rowXfer.takes (v ++ a ++ d) = true ↔ v = 1#1 ∧ a = 0x06#8 :=
  addressRow_takes v a d rfl rfl
theorem rowRdstatus_takes : rowRdstatus.takes (v ++ a ++ d) = true ↔ v = 0#1 ∧ a = 0x01#8 :=
  addressRow_takes v a d rfl rfl
theorem rowRderr_takes : rowRderr.takes (v ++ a ++ d) = true ↔ v = 0#1 ∧ a = 0x02#8 :=
  addressRow_takes v a d rfl rfl
theorem rowRderrlen_takes : rowRderrlen.takes (v ++ a ++ d) = true ↔ v = 0#1 ∧ a = 0x03#8 :=
  addressRow_takes v a d rfl rfl
theorem rowRdklen_takes : rowRdklen.takes (v ++ a ++ d) = true ↔ v = 0#1 ∧ a = 0x04#8 :=
  addressRow_takes v a d rfl rfl
theorem rowRdvlen_takes : rowRdvlen.takes (v ++ a ++ d) = true ↔ v = 0#1 ∧ a = 0x05#8 :=
  addressRow_takes v a d rfl rfl
theorem rowRdout_takes : rowRdout.takes (v ++ a ++ d) = true ↔ v = 0#1 ∧ a = 0x07#8 :=
  addressRow_takes v a d rfl rfl

theorem rowLdkey_takes :
    rowLdkey.takes (v ++ a ++ d) = true ↔ v = 1#1 ∧ 0x40 ≤ a.toNat ∧ a.toNat ≤ 0x7F := by
  rw [takes_word (mv := 1#1) (pv := 1#1) (ma := 0xC0#8) (pa := 0x40#8) (md := 0x00#8) (pd := 0x00#8) rfl rfl,
    and_one_bit, and_no_bits, keyWindow_iff]
  simp
theorem rowLdiv_takes :
    rowLdiv.takes (v ++ a ++ d) = true ↔ v = 1#1 ∧ 0x80 ≤ a.toNat ∧ a.toNat ≤ 0xBF := by
  rw [takes_word (mv := 1#1) (pv := 1#1) (ma := 0xC0#8) (pa := 0x80#8) (md := 0x00#8) (pd := 0x00#8) rfl rfl,
    and_one_bit, and_no_bits, ivWindow_iff]
  simp
theorem rowRdRaz_takes : rowRdRaz.takes (v ++ a ++ d) = true ↔ v = 0#1 := by
  rw [takes_word (mv := 1#1) (pv := 0#1) (ma := 0x00#8) (pa := 0x00#8) (md := 0x00#8) (pd := 0x00#8) rfl rfl,
    and_one_bit, and_no_bits, and_no_bits]
  simp
theorem rowWrIgn_takes : rowWrIgn.takes (v ++ a ++ d) = true ↔ v = 1#1 := by
  rw [takes_word (mv := 1#1) (pv := 1#1) (ma := 0x00#8) (pa := 0x00#8) (md := 0x00#8) (pd := 0x00#8) rfl rfl,
    and_one_bit, and_no_bits, and_no_bits]
  simp

end

end Sys2Proof
end

