-- ==== Sys2Proof/Laws/Packed.lean ====
section
/-! SUPPORT. The construction of `INIT` on ONE natural number in place of a table: digit `x` to base 256 is `P[x]`, digit 256 is
`s`. The kernel computes with such a number fast, so a test can evaluate a whole `INIT`; `construct_packs` says the number is
right. -/

namespace Sys2Proof.Machine

/-! ### Digits -/

/-- Digit `x` of `N` to base 256. -/
def digit (N x : Nat) : Nat := (N >>> (8 * x)) % 2 ^ 8

/-- `N` with `d` added to its digit `x`, bit by bit and without carry. -/
def addDigit (N x d : Nat) : Nat := N ^^^ (d <<< (8 * x))

theorem digit_lt (N x : Nat) : digit N x < 256 := Nat.mod_lt _ (by omega)

theorem xor_lt_256 {a b : Nat} (ha : a < 256) (hb : b < 256) : a ^^^ b < 256 := Nat.xor_lt_two_pow (n := 8) ha hb

theorem testBit_digit (N x i : Nat) : (digit N x).testBit i = (decide (i < 8) && N.testBit (8 * x + i)) := by
  unfold digit
  rw [Nat.testBit_mod_two_pow, Nat.testBit_shiftRight]

theorem digit_addDigit (N x y : Nat) {d : Nat} (hd : d < 256) :
    digit (addDigit N x d) y = if y = x then digit N x ^^^ d else digit N y := by
  apply Nat.eq_of_testBit_eq
  intro i
  have hbit : ∀ k, 8 ≤ k → d.testBit k = false := fun k hk =>
    Nat.testBit_lt_two_pow (Nat.lt_of_lt_of_le hd (Nat.pow_le_pow_right (n := 2) (by omega) hk))
  by_cases hi : i < 8
  · by_cases hy : y = x
    · subst hy
      simp [testBit_digit, addDigit, hi, Nat.testBit_shiftLeft]
    · simp only [testBit_digit, addDigit, hi, Nat.testBit_shiftLeft, Nat.testBit_xor, if_neg hy, decide_true,
        Bool.true_and]
      rcases Nat.lt_or_gt_of_ne hy with h | h
      · have : ¬ (8 * y + i ≥ 8 * x) := by omega
        simp [this]
      · rw [hbit _ (by omega)]; simp
  · by_cases hy : y = x
    · simp [testBit_digit, hi, hy, hbit i (by omega)]
    · simp [testBit_digit, hi, hy]

/-- `N` with its digits `a` and `b` exchanged. -/
def swapDigits (N a b : Nat) : Nat :=
  addDigit (addDigit N a (digit N a ^^^ digit N b)) b (digit N a ^^^ digit N b)

theorem digit_swapDigits (N a b y : Nat) :
    digit (swapDigits N a b) y = if y = a then digit N b else if y = b then digit N a else digit N y := by
  have hx := xor_lt_256 (digit_lt N a) (digit_lt N b)
  unfold swapDigits
  rw [digit_addDigit _ _ _ hx, digit_addDigit _ _ _ hx, digit_addDigit _ _ _ hx]
  by_cases h1 : y = a <;> by_cases h2 : y = b
  · subst h1 h2; simp
  · subst h1
    rw [if_neg h2, if_pos rfl, if_pos rfl, ← Nat.xor_assoc, Nat.xor_self, Nat.zero_xor]
  · subst h2
    rw [if_pos rfl, if_neg h1, if_neg h1, if_pos rfl, Nat.xor_comm (digit N a), ← Nat.xor_assoc, Nat.xor_self,
      Nat.zero_xor]
  · simp [h1, h2]

/-! ### Schedule steps and rounds -/

/-- A number holds a cipher instance. -/
def Packs (S : Nat) (c : Cipher) : Prop :=
  (∀ x : Byte, digit S x.toNat = (tableRead c.P x).toNat) ∧ digit S 256 = c.s.toNat

/-- A schedule step on the number (R76); `m i` is the message byte of step `i`. -/
def packStep (m : Nat → Nat) (S i : Nat) : Nat :=
  let s' := digit S ((digit S 256 + digit S (i % 256) + m i) % 256)
  addDigit (swapDigits S (i % 256) s') 256 (digit S 256 ^^^ s')

/-- `n` schedule steps from step `i` on. The match on the number makes the kernel compute it before the next step. -/
def packRun (m : Nat → Nat) : Nat → Nat → Nat → Nat
  | 0, _, S => S
  | n + 1, i, 0 => packRun m n (i + 1) (packStep m 0 i)
  | n + 1, i, S + 1 => packRun m n (i + 1) (packStep m (S + 1) i)

theorem packStep_packs {M : Buffer} {mlen : MsgLen} {c : Cipher} {m : Nat → Nat} {S i : Nat}
    (hm : m i = (readAt M (msgSlot mlen i)).toNat) (h : Packs S c) :
    Packs (packStep m S i) (scheduleStep M mlen c i) := by
  obtain ⟨hP, hs⟩ := h
  have hidx : i % 256 = (schedIdx i).toNat := by simp [schedIdx]
  have hs' : digit S ((digit S 256 + digit S (i % 256) + m i) % 256) = (scheduleStep M mlen c i).s.toNat := by
    rw [scheduleStep_s, ← hP, hs, hidx, hP, hm]
    congr 1
    simp [BitVec.toNat_add, Nat.add_mod]
  have hx := xor_lt_256 (digit_lt S 256) (BitVec.isLt (scheduleStep M mlen c i).s)
  unfold packStep
  simp only [hs']
  constructor
  · intro x
    have : x.toNat ≠ 256 := by have := x.isLt; omega
    rw [digit_addDigit _ _ _ hx, if_neg this, digit_swapDigits, scheduleStep_P, tableRead_tableSwap, hidx]
    simp only [BitVec.toNat_inj, hP]
    split
    · rfl
    split <;> rfl
  · rw [digit_addDigit _ _ _ hx, if_pos rfl, digit_swapDigits, if_neg (by omega), if_neg (by omega), ← Nat.xor_assoc,
      Nat.xor_self, Nat.zero_xor]

theorem packRun_packs {M : Buffer} {mlen : MsgLen} {m : Nat → Nat} (hm : ∀ i, m i = (readAt M (msgSlot mlen i)).toNat) :
    ∀ n i S c, Packs S c → Packs (packRun m n i S) ((List.range' i n).foldl (scheduleStep M mlen) c)
  | 0, _, _, _, h => h
  | n + 1, i, 0, _, h => packRun_packs hm n (i + 1) _ _ (packStep_packs (hm i) h)
  | n + 1, i, _ + 1, _, h => packRun_packs hm n (i + 1) _ _ (packStep_packs (hm i) h)

/-- A schedule round on the number (R77). -/
def packRound (m : Nat → Nat) (S : Nat) : Nat := packRun m 768 0 S

theorem packRound_packs {M : Buffer} {mlen : MsgLen} {m : Nat → Nat} {S : Nat} {c : Cipher}
    (hm : ∀ i, m i = (readAt M (msgSlot mlen i)).toNat) (h : Packs S c) :
    Packs (packRound m S) (scheduleRound M mlen c) := by
  rw [scheduleRound_eq, List.range_eq_range']
  exact packRun_packs hm _ _ _ _ h

/-! ### The construction -/

/-- The identity table, with `s = 0`. -/
def packIdentity : Nat := (List.range 256).foldr (fun b acc => b + 256 * acc) 0

theorem packs_identity : Packs packIdentity { P := identityTable, s := 0x00 } := by
  refine ⟨fun x => ?_, by decide +kernel⟩
  rw [tableRead_identityTable]
  revert x
  decide +kernel

/-- The message bytes as a round reads them: byte `i mod mlen` of the buffer. -/
def packBytes (M : Buffer) (mlen : Nat) (i : Nat) : Nat := (M.entries.getD (i % mlen) 0).toNat

/-- The number that holds the constructed instance (R78). -/
def packConstruct (K : Buffer) (klen : Nat) (V : Buffer) (vlen : Nat) : Nat :=
  packRound (packBytes V vlen) (packRound (packBytes K klen) packIdentity)

theorem construct_packs (K : Buffer) (klen : MsgLen) (V : Buffer) (vlen : MsgLen) :
    Packs (packConstruct K klen.val V vlen.val) (construct K klen V vlen) :=
  packRound_packs (fun i => by rw [readAt_eq_bufferByte]; rfl)
    (packRound_packs (fun i => by rw [readAt_eq_bufferByte]; rfl) packs_identity)

/-- A table entry from the number. -/
theorem Packs.tableRead_eq {S : Nat} {c : Cipher} (h : Packs S c) (x : Byte) :
    tableRead c.P x = BitVec.ofNat 8 (digit S x.toNat) := by
  rw [h.1]
  simp

theorem Packs.s_eq {S : Nat} {c : Cipher} (h : Packs S c) : c.s = BitVec.ofNat 8 (digit S 256) := by
  rw [h.2]
  simp

end Sys2Proof.Machine
end

