-- ==== Sys2Proof/Laws/PerInstr.lean ====
section
/-! SUPPORT. A fact about every instruction as syntax, one lemma per constructor: its encoded word carries the fixed bits of
its own row of the operation map (spec/30_encoding.md R59). -/

namespace Sys2Proof.Laws.RowBits

/-- The encoded word of `i` matches the row of `i`. -/
abbrev Statement (i : Instr) : Prop := i.row.takes (encode i) = true

theorem init : Statement .init := by decide
theorem start : Statement .start := by decide
theorem cmdRsvd (d : Byte) : Statement (.cmdRsvd d) :=
  (rowCmdRsvd_takes 1#1 _ d).2 ⟨rfl, rfl⟩
theorem setklen (n : Byte) : Statement (.setklen n) :=
  (rowSetklen_takes 1#1 _ n).2 ⟨rfl, rfl⟩
theorem setvlen (n : Byte) : Statement (.setvlen n) :=
  (rowSetvlen_takes 1#1 _ n).2 ⟨rfl, rfl⟩
theorem xfer (b : Byte) : Statement (.xfer b) :=
  (rowXfer_takes 1#1 _ b).2 ⟨rfl, rfl⟩
theorem ldkey (x : BufIndex) (b : Byte) : Statement (.ldkey x b) :=
  (rowLdkey_takes 1#1 (keyAddr x) b).2 ⟨rfl, by revert x; decide⟩
theorem ldiv (x : BufIndex) (b : Byte) : Statement (.ldiv x b) :=
  (rowLdiv_takes 1#1 (ivAddr x) b).2 ⟨rfl, by revert x; decide⟩
theorem rdstatus : Statement .rdstatus := by decide
theorem rderr : Statement .rderr := by decide
theorem rderrlen : Statement .rderrlen := by decide
theorem rdklen : Statement .rdklen := by decide
theorem rdvlen : Statement .rdvlen := by decide
theorem rdout : Statement .rdout := by decide
theorem rdRaz (a : Byte) : Statement (.rdRaz a) := (rowRdRaz_takes 0#1 a 0x00#8).2 rfl
theorem wrIgn (a d : Byte) : Statement (.wrIgn a d) := (rowWrIgn_takes 1#1 a d).2 rfl

end Sys2Proof.Laws.RowBits
end

