-- ==== Sys2Proof/Laws/Step.lean ====
section
/-! SUPPORT. What a meaning, a step and a sequence of operations can do, said once: every meaning answers a next state, a step
has three shapes, and sequences compose. -/

namespace Sys2Proof.Machine

open Sys2Proof.Safety

/-- Every meaning answers a next state, and leaves what is still to come at the port alone. -/
theorem exec_answers_next (i : Instr) (st : State) : ∃ t, exec i st = .next t ∧ t.pending = st.pending := by
  cases i with
  | init =>
    rcases execInit_cases st with ⟨_, e⟩ | ⟨_, _, e⟩ | ⟨_, _, c, -, e⟩ <;> exact ⟨_, e, by simp⟩
  | start =>
    rcases Bool.eq_false_or_eq_true st.ready with h | h
    · exact ⟨_, execStart_ready h, rfl⟩
    · exact ⟨_, execStart_notReady h, rfl⟩
  | xfer b =>
    rcases Bool.eq_false_or_eq_true st.ready with h | h
    · exact ⟨_, execXfer_ready b h, rfl⟩
    · exact ⟨_, execXfer_notReady b h, rfl⟩
  | _ => exact ⟨_, rfl, rfl⟩

/-- Everything a step that answers a next state has done: nothing, a hardware reset, or one operation. -/
theorem step_cases {st t : State} (h : step st = .next t) :
    (st.pending = [] ∧ t = st)
    ∨ (∃ rest, st.pending = .hardwareReset :: rest ∧ t = hardwareReset rest)
    ∨ ∃ w rest, st.pending = .operation w :: rest ∧ exec (decode w) (acceptOperation rest st) = .next t := by
  unfold step at h
  split at h
  · next hp => exact .inl ⟨hp, by injection h with h; exact h.symm⟩
  · next w rest hp => exact .inr (.inr ⟨w, rest, hp, h⟩)
  · next rest hp => exact .inr (.inl ⟨rest, hp, by injection h with h; exact h.symm⟩)

/-! ### One operation given to the engine -/

theorem perform_answers_next (i : Instr) (st : State) : ∃ t, perform i st = .next t := by
  obtain ⟨t, h, -⟩ := exec_answers_next i { st with rdata := none }
  exact ⟨t, h⟩

/-- What was returned for earlier operations has no part in the next one. -/
theorem perform_rdata (i : Instr) (st : State) (r : Option Byte) :
    perform i { st with rdata := r } = perform i st := rfl

/-! ### Sequences -/

theorem runOps_cons {i : Instr} {is : List Instr} {st t : State} (h : perform i st = .next t) :
    runOps (i :: is) st = runOps is t := by
  simp [runOps, h]

theorem responses_cons {i : Instr} {is : List Instr} {st t : State} (h : perform i st = .next t) :
    responses (i :: is) st = t.rdata :: responses is t := by
  simp [responses, h]

theorem runOps_answers_next (is : List Instr) (st : State) : ∃ t, runOps is st = .next t := by
  induction is generalizing st with
  | nil => exact ⟨st, rfl⟩
  | cons i is ih =>
    obtain ⟨u, hu⟩ := perform_answers_next i st
    obtain ⟨t, ht⟩ := ih u
    exact ⟨t, (runOps_cons hu).trans ht⟩

theorem runOps_append {is js : List Instr} {st t : State} (h : runOps is st = .next t) :
    runOps (is ++ js) st = runOps js t := by
  induction is generalizing st with
  | nil => simp only [runOps, Host.Outcome.next.injEq] at h; rw [h]; rfl
  | cons i is ih =>
    obtain ⟨u, hu⟩ := perform_answers_next i st
    rw [runOps_cons hu] at h
    rw [List.cons_append, runOps_cons hu, ih h]

theorem responses_append {is js : List Instr} {st t : State} (h : runOps is st = .next t) :
    responses (is ++ js) st = responses is st ++ responses js t := by
  induction is generalizing st with
  | nil => simp only [runOps, Host.Outcome.next.injEq] at h; rw [h]; rfl
  | cons i is ih =>
    obtain ⟨u, hu⟩ := perform_answers_next i st
    rw [runOps_cons hu] at h
    rw [List.cons_append, responses_cons hu, responses_cons hu, ih h]
    rfl

theorem responses_length (is : List Instr) (st : State) : (responses is st).length = is.length := by
  induction is generalizing st with
  | nil => rfl
  | cons i is ih =>
    obtain ⟨u, hu⟩ := perform_answers_next i st
    rw [responses_cons hu, List.length_cons, List.length_cons, ih]

theorem bytesRead_append {is js : List Instr} {st t : State} (h : runOps is st = .next t) :
    bytesRead (is ++ js) st = bytesRead is st ++ bytesRead js t := by
  simp [bytesRead, responses_append h]

end Sys2Proof.Machine
end

