-- ==== Sys2Proof/Tests/Slice0.lean ====
section
/-! SUPPORT. The model's own tests, each a single step whose expected values are written in spec/ (named in the comment above
it; V is 95_test_vectors.md), and one witness for the hypotheses of every obligation that has hypotheses. -/

namespace Sys2Proof.Tests

open Sys2Proof.Machine Sys2Proof.Safety

/-! ### Helpers -/

/-- The result is a next state of which `p` holds. -/
def nextWith (r : Result) (p : State → Bool) : Bool :=
  match r with
  | .next t => p t
  | .fault _ => false
  | .refused _ => false

/-- The table `R` of V K7 and V T2: `P[x] = ff - x`. -/
def reversedTable : Table := ⟨identityTable.entries.reverse, by simp [identityTable]⟩

/-- A ready engine on a hand-made cipher state. -/
def readyState (P : Table) (s j : Byte) : State := { State.reset with P := P, s := s, j := j, ready := true }

/-- The reset state with the two lengths stated. -/
def lengthsStated (k v : Byte) : State := { State.reset with klen := k, vlen := v }

/-- The reset state with one event at the port. -/
def presented (e : PortEvent) : State := { State.reset with pending := [e] }

/-- The 17-byte sequence `M17` of V K7: `10 11 12 ... 20`, in a buffer. -/
def bufferM17 : Buffer :=
  ⟨(List.range 64).map (fun n => if n < 17 then BitVec.ofNat 8 (0x10 + n) else 0), by simp⟩

def len17 : MsgLen := ⟨17, by decide⟩

/-- `KEY1` of V, in a buffer. -/
def key1 : Buffer :=
  ⟨[0x96, 0x61, 0x41, 0x0a, 0xb7, 0x97, 0xd8, 0xa9, 0xeb, 0x76, 0x7c, 0x21, 0x17, 0x2d, 0xf6, 0xc7]
    ++ List.replicate 48 0, by simp⟩

/-- `IV1` of V, in a buffer. -/
def iv1 : Buffer :=
  ⟨[0x4b, 0x5c, 0x2f, 0x00, 0x3e, 0x67, 0xf3, 0x95, 0x57, 0xa8, 0xd2, 0x6f, 0x3d, 0xa2, 0xb1, 0x55]
    ++ List.replicate 48 0, by simp⟩

def len16 : MsgLen := ⟨16, by decide⟩

/-- The engine with `KEY1`, `IV1` and both lengths loaded. -/
def loaded1 : State := { State.reset with key := key1, iv := iv1, klen := 16, vlen := 16 }

/-! ### Well-formedness: each check refuses an ill-formed term (R59 rows 3, 15 and 16) -/

theorem test_wf_refuses_unreserved_commands :
    (Instr.cmdRsvd 0x01).wf = false ∧ (Instr.cmdRsvd 0x02).wf = false := by decide

theorem test_wf_refuses_readable_addresses :
    (Instr.rdRaz 0x01).wf = false ∧ (Instr.rdRaz 0x05).wf = false ∧ (Instr.rdRaz 0x07).wf = false := by decide

theorem test_wf_refuses_writable_addresses :
    (Instr.wrIgn 0x00 0x7F).wf = false ∧ (Instr.wrIgn 0x06 0x00).wf = false ∧ (Instr.wrIgn 0x40 0x00).wf = false
    ∧ (Instr.wrIgn 0xBF 0x00).wf = false := by decide

theorem test_wf_accepts_the_rest :
    (Instr.cmdRsvd 0x00).wf = true ∧ (Instr.cmdRsvd 0xFF).wf = true
    ∧ (Instr.rdRaz 0x06).wf = true ∧ (Instr.rdRaz 0x08).wf = true ∧ (Instr.rdRaz 0xFF).wf = true
    ∧ (Instr.wrIgn 0x3F 0x00).wf = true ∧ (Instr.wrIgn 0xC0 0xFF).wf = true := by decide

/-! ### Decoding: words written out from R59's `match` and R50's fields, or listed in V's programs -/

-- Rows 1 and 2, V program A.
theorem test_decode_init : decode 0b1_00000000_00000001 = .init := by decide
theorem test_decode_start : decode 0b1_00000000_00000010 = .start := by decide
-- Row 3, V program B (0x1007f).
theorem test_decode_cmdRsvd : decode 0b1_00000000_01111111 = .cmdRsvd 0x7F := by decide
-- Rows 4 to 6, V programs A, B and C.
theorem test_decode_setklen : decode 0b1_00000100_00001111 = .setklen 15 := by decide
theorem test_decode_setvlen : decode 0b1_00000101_01000001 = .setvlen 65 := by decide
theorem test_decode_xfer : decode 0b1_00000110_01001000 = .xfer 0x48 := by decide
-- Rows 7 and 8, V program A (0x14a7c and 0x1815c); index bits 13:8.
theorem test_decode_ldkey : decode 0b1_01001010_01111100 = .ldkey 10 0x7C := by decide
theorem test_decode_ldiv : decode 0b1_10000001_01011100 = .ldiv 1 0x5C := by decide
-- Rows 9 to 14; a read ignores D (R51), so any D decodes the same.
theorem test_decode_rdstatus : decode 0b0_00000001_00000000 = .rdstatus ∧ decode 0x001FF = .rdstatus := by decide
theorem test_decode_rderr : decode 0b0_00000010_00000000 = .rderr := by decide
theorem test_decode_rderrlen : decode 0b0_00000011_00000000 = .rderrlen := by decide
theorem test_decode_rdklen : decode 0b0_00000100_00000000 = .rdklen := by decide
theorem test_decode_rdvlen : decode 0b0_00000101_00000000 = .rdvlen := by decide
theorem test_decode_rdout : decode 0b0_00000111_00000000 = .rdout := by decide
-- Rows 15 and 16, V program B (0x04000 and 0x101ff).
theorem test_decode_rdRaz : decode 0b0_01000000_00000000 = .rdRaz 0x40 := by decide
theorem test_decode_wrIgn : decode 0b1_00000001_11111111 = .wrIgn 0x01 0xFF := by decide

/-- A number with a bit above bit 16 is no operation word (R50). -/
theorem test_decode_rejects_18_bits : decodeNumber 0x20001 = .error .notAnOperationWord := by decide
theorem test_decodeTableWord : decodeTableWord 17 0x18F55 = some (.ldiv 15 0x55) ∧ decodeTableWord 17 0x20000 = none := by
  decide

/-! ### INIT -/

-- V S1 and K3: after INIT with KEY1 and IV1, s = b2; the next XFER 0x00 (V T1, n = 0) gives a8, the source's first byte.
def packed1 : Nat := packConstruct key1 len16.val iv1 len16.val

theorem test_packed1 :
    digit packed1 256 = 0xb2 ∧ digit packed1 0x00 = 0x3f ∧ digit packed1 0xf1 = 0x1a ∧ digit packed1 0x1a = 0xfa
    ∧ digit packed1 0xfa = 0x71 ∧ digit packed1 0x72 = 0xa8 := by decide +kernel

theorem packed1_construct : Packs packed1 (construct key1 len16 iv1 len16) := by
  unfold packed1
  exact construct_packs key1 len16 iv1 len16

theorem test_init_key1_iv1_then_xfer : ∃ t u, exec .init loaded1 = .next t ∧ t.s = 0xB2 ∧ t.ready = true
    ∧ exec (.xfer 0x00) t = .next u ∧ u.s = 0x1A ∧ u.j = 0x01 ∧ u.dout = 0xA8 := by
  have hp := packed1_construct
  obtain ⟨h0, h1, h2, h3, h4, h5⟩ := test_packed1
  have hs := hp.s_eq
  have r0 := hp.tableRead_eq 0x00#8
  have r1 := hp.tableRead_eq 0xF1#8
  have r2 := hp.tableRead_eq 0x1A#8
  have r3 := hp.tableRead_eq 0xFA#8
  have r4 := hp.tableRead_eq 0x72#8
  rw [h0] at hs
  rw [show digit packed1 (0x00#8).toNat = 0x3F from h1] at r0
  rw [show digit packed1 (0xF1#8).toNat = 0x1A from h2] at r1
  rw [show digit packed1 (0x1A#8).toNat = 0xFA from h3] at r2
  rw [show digit packed1 (0xFA#8).toNat = 0x71 from h4] at r3
  rw [show digit packed1 (0x72#8).toNat = 0xA8 from h5] at r4
  rcases execInit_cases loaded1 with ⟨hk, -⟩ | ⟨-, hv, -⟩ | ⟨hk, hv, c, hc, e⟩
  · exact absurd (by decide) hk
  · exact absurd (by decide) hv
  · have hc' : c = construct key1 len16 iv1 len16 := hc
    rw [← hc'] at hs r0 r1 r2 r3 r4
    refine ⟨_, _, e, ?_, ?_, execXfer_ready 0x00 ?_, ?_, ?_, ?_⟩ <;>
      simp [installCipher, openInstance, zeroise, setResult, emitByte, genStep, genAddr, keystreamIdx, nextIndex,
        hs, r0, r1, r2, r3, r4]

-- V K8 rows 1, 4 and 5: the key length is tested first.
theorem test_init_illegal_lengths :
    nextWith (exec .init (lengthsStated 15 16)) (fun t => t.errcode == 1 && t.errlen == 15 && !t.ready)
    ∧ nextWith (exec .init (lengthsStated 16 65)) (fun t => t.errcode == 2 && t.errlen == 65 && !t.ready)
    ∧ nextWith (exec .init (lengthsStated 15 65)) (fun t => t.errcode == 1 && t.errlen == 15 && t.klen == 15) := by
  decide

-- V K7, last row: the reversed table, s = 20, i = 300, M17.
theorem test_scheduleStep_reversed :
    let c := scheduleStep bufferM17 len17 { P := reversedTable, s := 0x20 } 300
    c.s = 0xF1 ∧ tableRead c.P 0x2C = 0x0E ∧ tableRead c.P 0xF1 = 0xD3 := by decide +kernel

-- V K7, third row: i = 767 reads index ff and message byte 767 mod 17 = 2.
theorem test_scheduleStep_last :
    let c := scheduleStep bufferM17 len17 { P := identityTable, s := 0x01 } 767
    c.s = 0x12 ∧ tableRead c.P 0x12 = 0xFF ∧ tableRead c.P 0xFF = 0x12 := by decide +kernel

/-! ### START, XFER, RDOUT -/

-- R90: j only; NOT_READY without an instance.
theorem test_start :
    nextWith (exec .start (readyState reversedTable 0x37 0xC8)) (fun t => t.j == 0 && t.s == 0x37 && t.errcode == 0)
    ∧ nextWith (exec .start State.reset) (fun t => t.errcode == 3 && t.errlen == 0) := by decide

-- V T2, last row.
theorem test_xfer_reversed :
    nextWith (exec (.xfer 0x0F) (readyState reversedTable 0x37 0xC8)) (fun t =>
      t.s == 0x91 && t.j == 0xC9 && t.dout == 0x62
        && tableRead t.P 0x91 == 0x37 && tableRead t.P 0xC8 == 0x6E) = true := by decide +kernel

-- V T2, row 4: j wraps from ff to 00.
theorem test_xfer_index_wraps :
    nextWith (exec (.xfer 0xFF) (readyState identityTable 0x10 0xFF)) (fun t =>
      t.s == 0x0F && t.j == 0x00 && t.dout == 0xEF
        && tableRead t.P 0x0F == 0xFF && tableRead t.P 0xFF == 0x0F) = true := by decide +kernel

-- R93; V program B: without an instance XFER neither encrypts nor echoes.
theorem test_rdout :
    nextWith (exec .rdout { State.reset with dout := 0xA8 }) (fun t => t.rdata == some 0xA8 && t.dout == 0xA8)
    ∧ nextWith (exec (.xfer 0x41) State.reset) (fun t => t.dout == 0 && t.errcode == 3) := by decide

/-! ### Loading -/

-- R70, R71.
theorem test_setklen_any_value : nextWith (exec (.setklen 255) State.reset) (fun t => t.klen == 255 && t.errcode == 0) := by
  decide
theorem test_setvlen_any_value : nextWith (exec (.setvlen 65) State.reset) (fun t => t.vlen == 65 && t.klen == 0) := by
  decide

-- R72, R73: the last entry of each buffer, and its neighbour.
theorem test_ldkey : nextWith (exec (.ldkey 63 0xC7) State.reset) (fun t =>
    readAt t.key 63 == 0xC7 && readAt t.key 62 == 0 && readAt t.iv 63 == 0) := by decide
theorem test_ldiv : nextWith (exec (.ldiv 0 0x4B) State.reset) (fun t =>
    readAt t.iv 0 == 0x4B && readAt t.iv 1 == 0 && readAt t.key 0 == 0) := by decide

/-! ### Reads and fall-back accesses -/

-- R110; V program C: 03 is an instance with the last command failed; V K8: 02 and 01.
theorem test_rdstatus :
    nextWith (exec .rdstatus { State.reset with ready := true, errcode := 1 }) (fun t => t.rdata == some 0x03)
    ∧ nextWith (exec .rdstatus { State.reset with errcode := 4 }) (fun t => t.rdata == some 0x02)
    ∧ nextWith (exec .rdstatus (readyState identityTable 0 0)) (fun t => t.rdata == some 0x01) := by decide

-- R111 to R114, distinct values in the four registers.
theorem test_result_reads :
    let st := { State.reset with errcode := 2, errlen := 0x41, klen := 0x10, vlen := 0x42 }
    nextWith (exec .rderr st) (fun t => t.rdata == some 0x02)
    ∧ nextWith (exec .rderrlen st) (fun t => t.rdata == some 0x41)
    ∧ nextWith (exec .rdklen st) (fun t => t.rdata == some 0x10)
    ∧ nextWith (exec .rdvlen st) (fun t => t.rdata == some 0x42) := by decide

-- R115: a key byte does not come back; R116, R117.
theorem test_fall_backs :
    nextWith (exec (.rdRaz 0x40) loaded1) (fun t => t.rdata == some 0x00)
    ∧ nextWith (exec (.wrIgn 0x01 0xFF) State.reset) (fun t => t.errcode == 0 && t.rdata == none)
    ∧ nextWith (exec (.cmdRsvd 0x7F) State.reset) (fun t => t.errcode == 4 && t.errlen == 0) := by decide

/-! ### Steps -/

-- R151: INIT at once after reset fails with 1; a reserved command with 4.
theorem test_step_fetch_word :
    nextWith (step (State.reset.withFetchWord 17 0x10001)) (fun t => t.errcode == 1 && t.pending == [])
    ∧ nextWith (step (State.reset.withFetchWord 17 0x1007F)) (fun t => t.errcode == 4) := by decide

-- R150: hardware reset.
theorem test_step_hardware_reset :
    nextWith (step { readyState reversedTable 1 2 with pending := [.hardwareReset, .operation 0x00100] }) (fun t =>
      !t.ready && t.s == 0 && t.j == 0 && t.P == identityTable && t.pending == [.operation 0x00100]) = true := by
  decide +kernel

/-! ### Witnesses: the hypotheses of each obligation are met -/

theorem witness_DecodeOfEncode :
    (Instr.ldiv 63 0xFF).wf = true ∧ (Instr.cmdRsvd 0x00).wf = true ∧ (Instr.rdRaz 0x08).wf = true
    ∧ (Instr.wrIgn 0xC0 0x00).wf = true := by decide

theorem witness_StepPerformsPresentedOperation :
    (presented (.operation 0x10641)).pending = .operation 0x10641 :: [] ∧ decode 0x10641 = .xfer 0x41 := by decide

theorem witness_IdleEngineKeepsAllState : (readyState reversedTable 0x37 0xC8).pending = [] := rfl

theorem witness_HardwareResetRestoresResetState :
    ({ readyState reversedTable 1 2 with pending := [.hardwareReset] } : State).pending = .hardwareReset :: [] := rfl

/-- Every address is met; the addresses of the seven cases are 01, 02, 03, 04, 05, 07 and any other. -/
theorem witness_RegisterMapReads (a d : Byte) :
    (presented (.operation (0#1 ++ a ++ d))).pending = .operation (0#1 ++ a ++ d) :: [] := rfl

/-- The port hypothesis, and each clause's own at the ends of its range. -/
theorem witness_RegisterMapWrites :
    (∀ a d : Byte, (presented (.operation (1#1 ++ a ++ d))).pending = .operation (1#1 ++ a ++ d) :: [])
    ∧ ((0x00 : Byte) ≠ 0x01 ∧ (0x00 : Byte) ≠ 0x02 ∧ (0x03 : Byte) ≠ 0x01 ∧ (0x03 : Byte) ≠ 0x02)
    ∧ (0x40 ≤ (0x40 : Byte).toNat ∧ (0x40 : Byte).toNat ≤ 0x7F)
    ∧ (0x40 ≤ (0x7F : Byte).toNat ∧ (0x7F : Byte).toNat ≤ 0x7F)
    ∧ (0x80 ≤ (0x80 : Byte).toNat ∧ (0x80 : Byte).toNat ≤ 0xBF)
    ∧ (0x80 ≤ (0xBF : Byte).toNat ∧ (0xBF : Byte).toNat ≤ 0xBF)
    ∧ (0x08 ≤ (0x08 : Byte).toNat ∧ (0x08 : Byte).toNat ≤ 0x3F)
    ∧ (0x08 ≤ (0x3F : Byte).toNat ∧ (0x3F : Byte).toNat ≤ 0x3F)
    ∧ 0xC0 ≤ (0xC0 : Byte).toNat ∧ 0xC0 ≤ (0xFF : Byte).toNat :=
  ⟨fun _ _ => rfl, by decide⟩

/-- No address falls under two clauses of the write map. -/
theorem witness_RegisterMapWrites_exclusive : ∀ a : Byte,
    ([a == 0x00, a == 0x04, a == 0x05, a == 0x06, decide (0x40 ≤ a.toNat ∧ a.toNat ≤ 0x7F),
      decide (0x80 ≤ a.toNat ∧ a.toNat ≤ 0xBF),
      decide (a = 0x01 ∨ a = 0x02 ∨ a = 0x03 ∨ a = 0x07 ∨ (0x08 ≤ a.toNat ∧ a.toNat ≤ 0x3F) ∨ 0xC0 ≤ a.toNat)].count true)
      = 1 := by decide +kernel

theorem witness_PortRunPerformsOperationsInOrder :
    ∀ i ∈ [Instr.setklen 16, .ldkey 15 0xC7, .init, .start, .xfer 0x41, .rdout], i.wf = true := by decide

theorem witness_StoringWritesAreIdempotent :
    (∃ t, exec (.setklen 16) State.reset = .next t) ∧ (∃ t, exec (.setvlen 65) State.reset = .next t)
    ∧ (∃ t, exec (.ldkey 63 0xC7) State.reset = .next t) ∧ ∃ t, exec (.ldiv 0 0x4B) State.reset = .next t :=
  ⟨⟨_, rfl⟩, ⟨_, rfl⟩, ⟨_, rfl⟩, ⟨_, rfl⟩⟩

/-- The lengths on both sides of both bounds. -/
theorem witness_InitFollowsItsRule :
    (¬ LegalLength (lengthsStated 15 16).klen.toNat ∧ ¬ LegalLength (lengthsStated 65 16).klen.toNat)
    ∧ (LegalLength (lengthsStated 16 15).klen.toNat ∧ ¬ LegalLength (lengthsStated 16 15).vlen.toNat)
    ∧ (LegalLength (lengthsStated 64 65).klen.toNat ∧ ¬ LegalLength (lengthsStated 64 65).vlen.toNat)
    ∧ (LegalLength (lengthsStated 16 64).klen.toNat ∧ LegalLength (lengthsStated 16 64).vlen.toNat)
    ∧ LegalLength (lengthsStated 64 16).klen.toNat ∧ LegalLength (lengthsStated 64 16).vlen.toNat := by decide

/-- Two states that differ beyond the stated key and IV and in all earlier state. -/
theorem witness_InitDependsOnlyOnStatedMaterial :
    let st' := { readyState reversedTable 1 2 with
      key := writeAt key1 16 0xFF, iv := writeAt iv1 63 0xFF, klen := 16, vlen := 16 }
    LegalLength loaded1.klen.toNat ∧ LegalLength loaded1.vlen.toNat
    ∧ st'.klen = loaded1.klen ∧ st'.vlen = loaded1.vlen
    ∧ (∀ x, x < 16 → bufferByte st'.key x = bufferByte loaded1.key x)
    ∧ (∀ x, x < 16 → bufferByte st'.iv x = bufferByte loaded1.iv x)
    ∧ bufferByte st'.key 16 ≠ bufferByte loaded1.key 16 := by decide

theorem witness_SecondInitWithoutReloadFails :
    LegalLength loaded1.klen.toNat ∧ LegalLength loaded1.vlen.toNat ∧ ∃ t, exec .init loaded1 = .next t := by
  obtain ⟨t, h, -⟩ := exec_answers_next .init loaded1
  exact ⟨by decide, by decide, t, h⟩

theorem witness_StartOpensCall : (readyState reversedTable 0x37 0xC8).ready = true ∧ State.reset.ready = false :=
  ⟨rfl, rfl⟩

theorem witness_XferTransformsOneByte :
    (readyState identityTable 0xFF 0x00).ready = true ∧ (readyState reversedTable 0x37 0xFF).ready = true
    ∧ (lengthsStated 16 16).ready = false := ⟨rfl, rfl, rfl⟩

theorem witness_NoBytesWithoutInstance :
    let is := [Instr.start, .xfer 0x41, .rdout]
    (lengthsStated 16 16).ready = false
    ∧ (∀ i ∈ is, i = .start ∨ i = .rdout ∨ ∃ b, i = .xfer b) ∧ ∃ i ∈ is, i ≠ .rdout := by
  refine ⟨rfl, ?_, .start, by simp, by decide⟩
  intro i hi
  simp only [List.mem_cons, List.not_mem_nil, or_false] at hi
  rcases hi with rfl | rfl | rfl
  · exact .inl rfl
  · exact .inr (.inr ⟨_, rfl⟩)
  · exact .inr (.inl rfl)

/-- Each case at the ends of its range. -/
theorem witness_ReadOfWriteOnlyOrReservedIsZero :
    ∀ a ∈ [0x00, 0x06, 0x08, 0xFF], (a : Byte) = 0x00 ∨ a = 0x06 ∨ 0x08 ≤ a.toNat := by decide

theorem witness_WriteToReadOnlyOrReservedIsIgnored :
    ∀ a ∈ [0x01, 0x02, 0x03, 0x07, 0x08, 0x3F, 0xC0, 0xFF], (a : Byte) = 0x01 ∨ a = 0x02 ∨ a = 0x03 ∨ a = 0x07
      ∨ (0x08 ≤ a.toNat ∧ a.toNat ≤ 0x3F) ∨ 0xC0 ≤ a.toNat := by decide

theorem witness_ReservedCommandFails : ∀ d ∈ [0x00, 0x03, 0xFF], (d : Byte) ≠ 0x01 ∧ d ≠ 0x02 := by decide

theorem witness_ReadsMayBeInsertedAnywhere :
    Instr.rdout.isWrite = false ∧ Instr.rdstatus.isWrite = false ∧ (Instr.rdRaz 0x40).isWrite = false := by decide

theorem witness_FailedCommandChangesOnlyResult :
    Instr.start.isCommand = true ∧ ∃ t, exec .start (lengthsStated 16 16) = .next t ∧ t.errcode ≠ 0 :=
  ⟨rfl, _, rfl, by decide⟩

/-- Every clause: an operation that is no command, and each of the four codes. -/
theorem witness_ErrorCausesAndCodes :
    (Instr.rderr.isCommand = false ∧ ∃ t, exec .rderr State.reset = .next t)
    ∧ nextWith (exec .init (lengthsStated 65 16)) (fun t => t.errcode == 1)
    ∧ nextWith (exec .init (lengthsStated 64 15)) (fun t => t.errcode == 2)
    ∧ nextWith (exec (.xfer 0xFF) State.reset) (fun t => t.errcode == 3)
    ∧ nextWith (exec (.cmdRsvd 0x00) State.reset) (fun t => t.errcode == 4) :=
  ⟨⟨rfl, _, rfl⟩, by decide⟩

/-- Each piece of state changes somewhere. -/
theorem witness_StateWrittenOnlyByListedOperations :
    nextWith (exec (.xfer 0x00) (readyState identityTable 0xFF 0x00)) (fun t =>
      t.P != identityTable && t.s == 0xFF && t.j == 0x01 && t.dout == 0x00)
    ∧ nextWith (exec (.xfer 0x00) (readyState reversedTable 0x00 0x00)) (fun t => t.dout == 0xFE && t.s == 0x00)
    ∧ nextWith (exec .start (readyState identityTable 0x00 0xC8)) (fun t => t.j == 0x00)
    ∧ nextWith (exec (.ldkey 0 0x96) State.reset) (fun t => t.key != zeroBuffer)
    ∧ nextWith (exec (.ldiv 0 0x4B) State.reset) (fun t => t.iv != zeroBuffer)
    ∧ nextWith (exec (.setklen 16) State.reset) (fun t => t.klen != 0)
    ∧ nextWith (exec (.setvlen 16) State.reset) (fun t => t.vlen != 0)
    ∧ nextWith (exec (.cmdRsvd 0x03) State.reset) (fun t => t.errcode != 0) := by decide +kernel

/-- Every step of every state answers a next state, so each invariant is asked of a step that is taken. -/
theorem step_answers_next (st : State) : ∃ t, step st = .next t := by
  match h : st.pending with
  | [] => exact ⟨st, by simp [step, h]⟩
  | .hardwareReset :: rest => exact ⟨hardwareReset rest, by simp [step, h]⟩
  | .operation w :: rest =>
    obtain ⟨t, ht, -⟩ := exec_answers_next (decode w) (acceptOperation rest st)
    exact ⟨t, by simpa [step, h] using ht⟩

/-- The reversed table, with an `XFER` at the port. -/
theorem witness_EveryStepKeepsPermutation :
    let st := { readyState reversedTable 0x37 0xC8 with pending := [.operation 0x1060F] }
    IsPermutation st.P ∧ ∃ t, step st = .next t := by
  refine ⟨fun v => ⟨0xFF - v, ?_, ?_⟩, step_answers_next _⟩
  · revert v; decide +kernel
  · have h : ∀ x : Byte, tableRead reversedTable x = 0xFF - x := by decide +kernel
    intro y hy
    have hy' : tableRead reversedTable y = v := hy
    rw [← hy', h]
    bv_omega

/-- Each of the four shapes of a legal result, with an operation at the port. -/
theorem witness_EveryStepKeepsResultLegal :
    ResultLegal (presented (.operation 0x10001))
    ∧ ResultLegal { presented (.operation 0x00200) with errcode := 1, errlen := 65 }
    ∧ ResultLegal { presented (.operation 0x00200) with errcode := 2, errlen := 15 }
    ∧ ResultLegal { presented (.operation 0x10002) with errcode := 3 }
    ∧ ResultLegal { presented (.operation 0x10002) with errcode := 4, ready := true }
    ∧ ∃ t, step (presented (.operation 0x10001)) = .next t :=
  ⟨by decide, by decide, by decide, by decide, by decide, step_answers_next _⟩

/-- A state without an instance and one with an instance. -/
theorem witness_EveryStepKeepsNoInstanceYet :
    NoInstanceYet { lengthsStated 16 16 with pending := [.operation 0x10001] }
    ∧ NoInstanceYet { readyState reversedTable 0x37 0xC8 with pending := [.hardwareReset] }
    ∧ ∃ t, step { lengthsStated 16 16 with pending := [.operation 0x10001] } = .next t :=
  ⟨fun _ => ⟨rfl, rfl, rfl, rfl⟩, fun h => absurd h (by decide), step_answers_next _⟩

/-- `READY` is set by an `INIT`, and cleared by a hardware reset. -/
theorem witness_ReadySetByInitClearedByReset :
    (∃ t, step { loaded1 with pending := [.operation 0x10001] } = .next t ∧ t.ready ≠ loaded1.ready)
    ∧ ∃ t, step { readyState reversedTable 1 2 with pending := [.hardwareReset] } = .next t ∧ t.ready ≠ true := by
  constructor
  · rcases execInit_cases (acceptOperation [] loaded1) with ⟨hk, -⟩ | ⟨-, hv, -⟩ | ⟨-, -, c, -, e⟩
    · exact absurd (by decide) hk
    · exact absurd (by decide) hv
    · exact ⟨_, e, by simp [loaded1, State.reset]⟩
  · exact ⟨_, rfl, by decide⟩

theorem witness_CipherStateShowsOnlyThroughXfer :
    (∀ b, Instr.rdout ≠ .xfer b) ∧ (∀ b, Instr.init ≠ .xfer b) ∧ ∀ b, Instr.start ≠ .xfer b :=
  ⟨fun _ => nofun, fun _ => nofun, fun _ => nofun⟩

theorem witness_KeyMaterialUsedOnlyByInit : Instr.rdRaz 0x40 ≠ .init ∧ Instr.xfer 0x41 ≠ .init := by decide

/-- Each clause, at the ends of its range. -/
theorem witness_InitializeImageIsSourceConstruction :
    ∃ b15 b16 b64 b65 b255 : List Byte,
      (b255.length ≤ 255 ∧ ¬ LegalLength b255.length) ∧ (b15.length ≤ 255 ∧ ¬ LegalLength b15.length)
      ∧ (b65.length ≤ 255 ∧ ¬ LegalLength b65.length)
      ∧ (b16.length ≤ 255 ∧ LegalLength b16.length) ∧ (b64.length ≤ 255 ∧ LegalLength b64.length) :=
  ⟨List.replicate 15 0xA5, List.replicate 16 0xA5, List.replicate 64 0xA5, List.replicate 65 0xA5,
    List.replicate 255 0xA5, by simp only [List.length_replicate]; decide⟩

theorem witness_CallIsSourceTransform : (readyState reversedTable 0x37 0xC8).ready = true := rfl

theorem witness_CallsSplitAtMultipleOf256 :
    (readyState reversedTable 0x37 0xC8).ready = true
    ∧ (List.replicate 256 (0x00 : Byte)).length % 256 = 0 ∧ ([] : List Byte).length % 256 = 0 :=
  ⟨rfl, by rw [List.length_replicate], rfl⟩

theorem witness_NonCommandsDoNotDisturbACall :
    ∀ i ∈ [Instr.rdout, .rdstatus, .setklen 16, .ldkey 0 0x96, .ldiv 63 0x55, .wrIgn 0x01 0xFF], i.isCommand = false := by
  decide

/-- Two engines in the same cipher state that differ elsewhere. -/
theorem witness_DecryptionMirrorsEncryption :
    let st := readyState reversedTable 0x37 0xC8
    let st' := { st with dout := 0x99, klen := 16, errcode := 4 }
    st.ready = true ∧ st'.ready = true ∧ st'.P = st.P ∧ st'.s = st.s ∧ st'.j = st.j := ⟨rfl, rfl, rfl, rfl, rfl⟩

theorem witness_KeystreamIndependentOfData :
    List.Forall₂ SameButData [.start, .xfer 0x41, .rdout] [.start, .xfer 0x00, .rdout]
    ∧ (readyState reversedTable 0x37 0xC8).ready = true
    ∧ ([0x41, 0x74] : List Byte).length = ([0x00, 0xFF] : List Byte).length :=
  ⟨.cons (.inl rfl) (.cons (.inr ⟨_, _, rfl, rfl⟩) (.cons (.inl rfl) .nil)), rfl, rfl⟩

theorem witness_EncryptThenDecryptReturnsMessage :
    LegalLength (List.replicate 16 (0x96 : Byte)).length ∧ LegalLength (List.replicate 64 (0x4B : Byte)).length := by
  simp only [List.length_replicate]
  decide

end Sys2Proof.Tests
end

section
/-! SUPPORT. Proofs about scope (spec/00_scope.md R4, R9): what a step does with the event at the port, and the image of
`initialize(key, iv)`: loading two buffers byte by byte, and the engine's construction as the source's. -/

namespace Sys2Proof.Machine

open Sys2Proof.Safety

/-! ### A step, by what is at the port -/

/-- With nothing at the port the engine waits (R141). -/
theorem step_idle {st : State} (h : st.pending = []) : step st = .next st := by
  simp [step, h]

/-- The operation at the port is accepted and performed (R39). -/
theorem step_operation {st : State} {w : OpWord} {rest : List PortEvent}
    (h : st.pending = .operation w :: rest) :
    step st = exec (decode w) (acceptOperation rest st) := by
  simp [step, h]

/-- Settles O7: the first case of a step. -/
theorem idleEngineKeepsAllState : Obligations.IdleEngineKeepsAllState :=
  fun _ hidle => step_idle hidle

/-- Settles O6: accepting the operation is what clears `rdata` and takes the event off the port. -/
theorem stepPerformsPresentedOperation : Obligations.StepPerformsPresentedOperation := by
  intro st w rest i hport hdecode
  rw [step_operation hport, hdecode]
  rfl

/-! ### The construction is the source's (R76 to R78) -/

/-- The engine's cipher instance as the source's pair `(P, s)`. -/
def Cipher.soft (c : Cipher) : SoftCipher := { P := tableRead c.P, s := c.s }

/-- The engine's swap is the source's swap. -/
theorem tableRead_tableSwap_eq_softSwap (P : Table) (a b : Byte) :
    tableRead (tableSwap P a b) = softSwap (tableRead P) a b :=
  funext (tableRead_tableSwap P a b)

/-- A round reads byte `i mod mlen` of its buffer (R76). -/
theorem readAt_msgSlot (M : Buffer) (mlen : MsgLen) (i : Nat) :
    readAt M (msgSlot mlen i) = bufferByte M (i % mlen.val) :=
  readAt_eq_bufferByte M (msgSlot mlen i)

theorem soft_scheduleStep (M : Buffer) (mlen : MsgLen) (c : Cipher) (i : Nat) :
    (scheduleStep M mlen c i).soft
      = softScheduleStep (fun i => bufferByte M (i % mlen.val)) c.soft i := by
  simp only [Cipher.soft, softScheduleStep, scheduleStep_P, scheduleStep_s, readAt_msgSlot,
    tableRead_tableSwap_eq_softSwap, schedIdx]

theorem soft_scheduleRound (M : Buffer) (mlen : MsgLen) (c : Cipher) :
    (scheduleRound M mlen c).soft
      = softScheduleRound (fun i => bufferByte M (i % mlen.val)) c.soft := by
  rw [scheduleRound_eq]
  exact (List.foldl_hom Cipher.soft fun c i => (soft_scheduleStep M mlen c i).symm).symm

theorem soft_identity : Cipher.soft { P := identityTable, s := 0x00 } = { P := fun x => x, s := 0 } := by
  simp only [Cipher.soft, SoftCipher.mk.injEq, and_true]
  exact funext tableRead_identityTable

/-- `Construct` computes the source's instance from the bytes the two rounds read (R78). -/
theorem soft_construct (K : Buffer) (klen : MsgLen) (V : Buffer) (vlen : MsgLen) :
    (construct K klen V vlen).soft
      = softConstruct (fun i => bufferByte K (i % klen.val)) (fun i => bufferByte V (i % vlen.val)) := by
  simp only [construct, softConstruct, soft_scheduleRound, soft_identity]

/-! ### Loading a buffer (R57, R72, R73) -/

/-- The buffer with `bs` written to its entries from `n` on. -/
def storeBytes (M : Buffer) (n : Nat) : List Byte → Buffer
  | [] => M
  | b :: bs => storeBytes (writeAt M (bufSlot (BitVec.ofNat 6 n)) b) (n + 1) bs

/-- A byte after a write to entry `n`. -/
theorem bufferByte_writeAt (M : Buffer) {n : Nat} (hn : n < 64) (b : Byte) (x : Nat) :
    bufferByte (writeAt M (bufSlot (BitVec.ofNat 6 n)) b) x = if x = n then b else bufferByte M x := by
  have hlen : n < M.entries.length := by rw [M.length_eq]; exact hn
  have hslot : (bufSlot (BitVec.ofNat 6 n)).val = n := Nat.mod_eq_of_lt hn
  simp only [bufferByte, writeAt, hslot, List.getD_eq_getElem?_getD]
  by_cases hx : x = n
  · rw [hx, List.getElem?_set_self hlen, if_pos rfl, Option.getD_some]
  · rw [List.getElem?_set_ne (Ne.symm hx), if_neg hx]

/-- A byte after loading: the one loaded from `n` on, the old one elsewhere. -/
theorem bufferByte_storeBytes (M : Buffer) (n : Nat) (bs : List Byte) (hn : n + bs.length ≤ 64) (x : Nat) :
    bufferByte (storeBytes M n bs) x
      = if n ≤ x then bs.getD (x - n) (bufferByte M x) else bufferByte M x := by
  induction bs generalizing M n with
  | nil => simp [storeBytes]
  | cons b bs ih =>
    rw [List.length_cons] at hn
    rw [storeBytes, ih _ _ (by omega), bufferByte_writeAt M (by omega)]
    rcases Nat.lt_trichotomy x n with h | rfl | h
    · rw [if_neg (by omega), if_neg (by omega), if_neg (by omega)]
    · simp
    · obtain ⟨d, rfl⟩ : ∃ d, x = n + 1 + d := ⟨x - (n + 1), by omega⟩
      rw [if_pos (by omega), if_neg (by omega), if_pos (by omega), Nat.add_sub_cancel_left,
        show n + 1 + d - n = d + 1 by omega, List.getD_cons_succ]

/-- A buffer loaded with a message of legal length holds, where a round reads it, the message's own bytes. -/
theorem bufferByte_storeBytes_cyclic (M : Buffer) {m : List Byte} (hm : LegalLength m.length) (i : Nat) :
    bufferByte (storeBytes M 0 (m.take 64)) (i % m.length) = cyclicByte m i := by
  obtain ⟨hmin, hmax⟩ := hm
  have hi : i % m.length < m.length := Nat.mod_lt _ (by omega)
  rw [List.take_of_length_le hmax, bufferByte_storeBytes M 0 m (by omega), if_pos (Nat.zero_le _), Nat.sub_zero,
    cyclicByte, List.getD_eq_getElem _ _ hi, List.getD_eq_getElem _ _ hi]

/-- Loads of consecutive entries, from `n` on, by an operation `op` that writes one byte of the buffer inside `put`. -/
theorem runOps_loads {op : BufIndex → Byte → Instr} {put : Buffer → State}
    (hop : ∀ x b M, perform (op x b) (put M) = .next (put (writeAt M (bufSlot x) b)))
    (bs : List Byte) (n : Nat) (M : Buffer) :
    runOps ((bs.zipIdx n).map fun p => op (BitVec.ofNat 6 p.2) p.1) (put M) = .next (put (storeBytes M n bs)) := by
  induction bs generalizing n M with
  | nil => rfl
  | cons b bs ih =>
    rw [List.zipIdx_cons, List.map_cons, runOps_cons (hop _ _ _), ih]
    rfl

/-- What `LOADKEY` leaves (R57). -/
theorem runOps_loadKeyOps (key : List Byte) (st : State) :
    runOps (loadKeyOps key) st = .next { st with
      klen := BitVec.ofNat 8 key.length, key := storeBytes st.key 0 (key.take 64), rdata := none } :=
  runOps_loads (op := .ldkey)
    (put := fun M => { st with klen := BitVec.ofNat 8 key.length, key := M, rdata := none })
    (fun _ _ _ => rfl) (key.take 64) 0 st.key

/-- What `LOADIV` leaves (R57). -/
theorem runOps_loadIvOps (iv : List Byte) (st : State) :
    runOps (loadIvOps iv) st = .next { st with
      vlen := BitVec.ofNat 8 iv.length, iv := storeBytes st.iv 0 (iv.take 64), rdata := none } :=
  runOps_loads (op := .ldiv)
    (put := fun M => { st with vlen := BitVec.ofNat 8 iv.length, iv := M, rdata := none })
    (fun _ _ _ => rfl) (iv.take 64) 0 st.iv

/-! ### The image of `initialize(key, iv)` (R9) -/

/-- The state in which the `INIT` of `initialize(key, iv)` finds the engine. -/
def loadedState (key iv : List Byte) (st : State) : State :=
  { st with
    klen := BitVec.ofNat 8 key.length, key := storeBytes st.key 0 (key.take 64)
    vlen := BitVec.ofNat 8 iv.length, iv := storeBytes st.iv 0 (iv.take 64)
    rdata := none }

theorem runOps_initializeOps {key iv : List Byte} {st t : State}
    (h : execInit (loadedState key iv st) = .next t) : runOps (initializeOps key iv) st = .next t := by
  rw [initializeOps, List.append_assoc, runOps_append (runOps_loadKeyOps key st),
    runOps_append (runOps_loadIvOps iv _)]
  exact runOps_cons h

/-- A length register states every length up to 255 (R17). -/
theorem toNat_ofNat_length {m : List Byte} (hm : m.length ≤ 255) : (BitVec.ofNat 8 m.length).toNat = m.length := by
  rw [BitVec.toNat_ofNat, Nat.mod_eq_of_lt (by omega)]

/-- The instance `INIT` constructs from the loaded buffers is the source's from the key and the IV themselves. -/
theorem soft_construct_loaded (K V : Buffer) {key iv : List Byte}
    (hk : LegalLength key.length) (hv : LegalLength iv.length) :
    (construct (storeBytes K 0 (key.take 64)) ⟨key.length, hk⟩ (storeBytes V 0 (iv.take 64)) ⟨iv.length, hv⟩).soft
      = softConstruct (cyclicByte key) (cyclicByte iv) := by
  simp only [soft_construct, bufferByte_storeBytes_cyclic _ hk, bufferByte_storeBytes_cyclic _ hv]

/-- Settles O43, by the three cases of `INIT` in the loaded state. -/
theorem initializeImageIsSourceConstruction : Obligations.InitializeImageIsSourceConstruction := by
  intro st key iv hkey hiv
  have hklen : (loadedState key iv st).klen.toNat = key.length := toNat_ofNat_length hkey
  have hvlen : (loadedState key iv st).vlen.toNat = iv.length := toNat_ofNat_length hiv
  have hcases := execInit_cases (loadedState key iv st)
  simp only [hklen, hvlen] at hcases
  rcases hcases with ⟨hk, e⟩ | ⟨hk, hv, e⟩ | ⟨hk, hv, c, hc, e⟩
  · exact ⟨_, runOps_initializeOps e, fun hk' => absurd hk' hk,
      fun _ => ⟨rfl, hklen, rfl, rfl, rfl, rfl, rfl⟩, fun hk' => absurd hk' hk⟩
  · exact ⟨_, runOps_initializeOps e, fun _ hv' => absurd hv' hv, fun hk' => absurd hk hk',
      fun _ _ => ⟨rfl, hvlen, rfl, rfl, rfl, rfl, rfl⟩⟩
  · have hsoft : c.soft = softConstruct (cyclicByte key) (cyclicByte iv) :=
      hc ▸ soft_construct_loaded st.key st.iv hk hv
    refine ⟨_, runOps_initializeOps e, fun _ _ => ⟨fun x => ?_, ?_, rfl⟩,
      fun hk' => absurd hk hk', fun _ hv' => absurd hv hv'⟩
    · exact congrFun (congrArg SoftCipher.P hsoft) x
    · exact congrArg SoftCipher.s hsoft

end Sys2Proof.Machine
end

section
/-! SUPPORT. Proofs about the state (spec/10_state.md): what each operation does to it, said once as a relation; the table as a
permutation; the three invariants, each a fact about the operations; and what does not show through an operation (R15, R16, R27). -/

namespace Sys2Proof.Machine

open Sys2Proof.Safety

/-! ### What an operation does to the state -/

/-- A command that meets an error, with the code and the length it reports (R75, R131, R134, R135). -/
inductive FailsWith (st : State) : Instr → ErrCode → Byte → Prop
  | keyLength (hk : ¬ LegalLength st.klen.toNat) : FailsWith st .init .invalidKeySize st.klen
  | ivLength (hk : LegalLength st.klen.toNat) (hv : ¬ LegalLength st.vlen.toNat) :
      FailsWith st .init .invalidIvSize st.vlen
  | startNotReady (hr : st.ready = false) : FailsWith st .start .notReady 0
  | xferNotReady (b : Byte) (hr : st.ready = false) : FailsWith st (.xfer b) .notReady 0
  | reservedCommand (d : Byte) : FailsWith st (.cmdRsvd d) .illegalCmd 0

theorem FailsWith.isCommand {st : State} {i : Instr} {code : ErrCode} {len : Byte} (h : FailsWith st i code len) :
    i.isCommand = true := by
  cases h <;> rfl

/-- `Effect st i t`: operation `i` takes state `st` to `t`. Every read is one case, whichever byte it returns, and so is every
failing command; each other case is one operation. -/
inductive Effect (st : State) : Instr → State → Prop
  | returns {i : Instr} (v : Byte) (hi : i.isWrite = false) : Effect st i (returnByte v st)
  | ignores (a d : Byte) : Effect st (.wrIgn a d) st
  | fails {i : Instr} {code : ErrCode} {len : Byte} (hf : FailsWith st i code len) :
      Effect st i (failWith code len st)
  | initialises (hk : LegalLength st.klen.toNat) (hv : LegalLength st.vlen.toNat) (c : Cipher)
      (hc : c = construct st.key ⟨st.klen.toNat, hk⟩ st.iv ⟨st.vlen.toNat, hv⟩) :
      Effect st .init (succeed (zeroise (openInstance (installCipher c st))))
  | opensCall (hr : st.ready = true) : Effect st .start (succeed { st with j := 0x00 })
  | transforms (b : Byte) (hr : st.ready = true) :
      Effect st (.xfer b) (succeed (emitByte b (genStep st.P st.s st.j) st))
  | setsKlen (n : Byte) : Effect st (.setklen n) { st with klen := n }
  | setsVlen (n : Byte) : Effect st (.setvlen n) { st with vlen := n }
  | loadsKey (x : BufIndex) (b : Byte) : Effect st (.ldkey x b) { st with key := writeAt st.key (bufSlot x) b }
  | loadsIv (x : BufIndex) (b : Byte) : Effect st (.ldiv x b) { st with iv := writeAt st.iv (bufSlot x) b }

theorem exec_answers_effect (i : Instr) (st : State) : ∃ t, exec i st = .next t ∧ Effect st i t := by
  cases i with
  | init =>
    rcases execInit_cases st with ⟨hk, e⟩ | ⟨hk, hv, e⟩ | ⟨hk, hv, c, hc, e⟩
    · exact ⟨_, e, .fails (.keyLength hk)⟩
    · exact ⟨_, e, .fails (.ivLength hk hv)⟩
    · exact ⟨_, e, .initialises hk hv c hc⟩
  | start =>
    cases hr : st.ready with
    | true => exact ⟨_, execStart_ready hr, .opensCall hr⟩
    | false => exact ⟨_, execStart_notReady hr, .fails (.startNotReady hr)⟩
  | xfer b =>
    cases hr : st.ready with
    | true => exact ⟨_, execXfer_ready b hr, .transforms b hr⟩
    | false => exact ⟨_, execXfer_notReady b hr, .fails (.xferNotReady b hr)⟩
  | cmdRsvd d => exact ⟨_, rfl, .fails (.reservedCommand d)⟩
  | setklen n => exact ⟨_, rfl, .setsKlen n⟩
  | setvlen n => exact ⟨_, rfl, .setsVlen n⟩
  | ldkey x b => exact ⟨_, rfl, .loadsKey x b⟩
  | ldiv x b => exact ⟨_, rfl, .loadsIv x b⟩
  | wrIgn a d => exact ⟨_, rfl, .ignores a d⟩
  | rdstatus | rderr | rderrlen | rdklen | rdvlen | rdout | rdRaz => exact ⟨_, rfl, .returns _ rfl⟩

theorem effect_of_exec {i : Instr} {st t : State} (h : exec i st = .next t) : Effect st i t := by
  obtain ⟨u, hu, heffect⟩ := exec_answers_effect i st
  obtain rfl : u = t := Host.Outcome.next.inj (hu.symm.trans h)
  exact heffect

/-- Settles O35: each effect writes the fields listed for its operation. -/
theorem stateWrittenOnlyByListedOperations : Obligations.StateWrittenOnlyByListedOperations := by
  intro i st t h
  cases effect_of_exec h with
  | returns | ignores | setsKlen | setsVlen | loadsKey | loadsIv => simp
  | fails hf => simp [hf.isCommand]
  | initialises | opensCall | transforms => simp [Instr.isCommand]

/-! ### The table as a permutation (R11) -/

/-- Every value exactly once is bijectivity of the table as a function. -/
theorem isPermutation_iff_bijective (P : Table) : IsPermutation P ↔ Function.Bijective (tableRead P) :=
  (Function.bijective_iff_existsUnique _).symm

theorem identityTable_isPermutation : IsPermutation identityTable := by
  rw [isPermutation_iff_bijective, show tableRead identityTable = id from funext tableRead_identityTable]
  exact Function.bijective_id

/-- Reading a swapped table is reading the table at the swapped index. -/
theorem tableRead_tableSwap_eq_comp (P : Table) (a b : Byte) :
    tableRead (tableSwap P a b) = tableRead P ∘ Equiv.swap a b := by
  funext x
  rw [tableRead_tableSwap, Function.comp_apply, Equiv.swap_apply_def, apply_ite (tableRead P), apply_ite (tableRead P)]

theorem tableSwap_isPermutation {P : Table} (h : IsPermutation P) (a b : Byte) : IsPermutation (tableSwap P a b) := by
  rw [isPermutation_iff_bijective] at h ⊢
  rw [tableRead_tableSwap_eq_comp]
  exact h.comp (Equiv.swap a b).bijective

theorem scheduleStep_isPermutation (M : Buffer) (mlen : MsgLen) {c : Cipher} (h : IsPermutation c.P) (i : Nat) :
    IsPermutation (scheduleStep M mlen c i).P := by
  rw [scheduleStep_P]
  exact tableSwap_isPermutation h _ _

theorem scheduleRound_isPermutation (M : Buffer) (mlen : MsgLen) {c : Cipher} (h : IsPermutation c.P) :
    IsPermutation (scheduleRound M mlen c).P := by
  rw [scheduleRound_eq]
  generalize List.range Config.schedIters = steps
  induction steps generalizing c with
  | nil => exact h
  | cons i steps ih => exact ih (scheduleStep_isPermutation M mlen h i)

/-- `Construct` starts from the identity table, so its own table is a permutation whatever the key and the IV (R78). -/
theorem construct_isPermutation (K : Buffer) (klen : MsgLen) (V : Buffer) (vlen : MsgLen) :
    IsPermutation (construct K klen V vlen).P :=
  scheduleRound_isPermutation V vlen (scheduleRound_isPermutation K klen identityTable_isPermutation)

/-! ### Invariants of the engine -/

/-- What a hardware reset establishes and every operation keeps, every step keeps, provided it does not speak of the port. -/
theorem step_keeps {Inv : State → Prop}
    (haccept : ∀ (rest : List PortEvent) (st : State), Inv st → Inv (acceptOperation rest st))
    (hreset : ∀ rest : List PortEvent, Inv (hardwareReset rest))
    (hexec : ∀ {i : Instr} {st t : State}, Inv st → exec i st = .next t → Inv t)
    {st t : State} (hst : Inv st) (h : step st = .next t) : Inv t := by
  rcases step_cases h with ⟨-, rfl⟩ | ⟨rest, -, rfl⟩ | ⟨w, rest, -, he⟩
  · exact hst
  · exact hreset rest
  · exact hexec (haccept rest st hst) he

/-- `INIT` builds a permutation, `XFER` swaps two entries, and nothing else writes the table. -/
theorem exec_keeps_permutation {i : Instr} {st t : State} (hP : IsPermutation st.P) (h : exec i st = .next t) :
    IsPermutation t.P := by
  cases effect_of_exec h with
  | initialises hk hv c hc => exact hc ▸ construct_isPermutation _ _ _ _
  | transforms b => exact tableSwap_isPermutation hP _ _
  | _ => exact hP

/-- Settles O36: every write to the table is a swap or a construction. -/
theorem everyStepKeepsPermutation : Obligations.EveryStepKeepsPermutation :=
  fun _ _ => step_keeps (Inv := fun st => IsPermutation st.P) (fun _ _ h => h)
    (fun _ => identityTable_isPermutation) exec_keeps_permutation

theorem FailsWith.resultLegal {st : State} {i : Instr} {code : ErrCode} {len : Byte} (h : FailsWith st i code len) :
    ResultLegal (failWith code len st) := by
  cases h with
  | keyLength hk => exact .inr (.inl ⟨.inl rfl, hk⟩)
  | ivLength _ hv => exact .inr (.inl ⟨.inr rfl, hv⟩)
  | startNotReady hr | xferNotReady _ hr => exact .inr (.inr (.inl ⟨rfl, rfl, hr⟩))
  | reservedCommand => exact .inr (.inr (.inr ⟨rfl, rfl⟩))

/-- A command writes a legal result, and no other operation writes either register or `READY`. -/
theorem exec_keeps_resultLegal {i : Instr} {st t : State} (hr : ResultLegal st) (h : exec i st = .next t) :
    ResultLegal t := by
  cases effect_of_exec h with
  | fails hf => exact hf.resultLegal
  | initialises | opensCall | transforms => exact .inl ⟨rfl, rfl⟩
  | _ => exact hr

theorem hardwareReset_resultLegal (rest : List PortEvent) : ResultLegal (hardwareReset rest) := .inl ⟨rfl, rfl⟩

/-- Settles O37, by the result each operation leaves. -/
theorem everyStepKeepsResultLegal : Obligations.EveryStepKeepsResultLegal :=
  fun _ _ => step_keeps (Inv := ResultLegal) (fun _ _ h => h) hardwareReset_resultLegal exec_keeps_resultLegal

/-- Only `INIT`, `START` and `XFER` write the cipher state or `DOUT`, and each that does leaves `READY` at 1. -/
theorem exec_keeps_noInstanceYet {i : Instr} {st t : State} (hn : NoInstanceYet st) (h : exec i st = .next t) :
    NoInstanceYet t := by
  intro hnot
  cases effect_of_exec h with
  | initialises => exact absurd hnot Bool.false_ne_true.symm
  | opensCall hr | transforms _ hr => exact absurd (hr.symm.trans hnot) Bool.false_ne_true.symm
  | _ => exact hn hnot

theorem hardwareReset_noInstanceYet (rest : List PortEvent) : NoInstanceYet (hardwareReset rest) :=
  fun _ => ⟨rfl, rfl, rfl, rfl⟩

/-- Settles O38: without an instance nothing but a successful `INIT` reaches the cipher state. -/
theorem everyStepKeepsNoInstanceYet : Obligations.EveryStepKeepsNoInstanceYet :=
  fun _ _ => step_keeps (Inv := NoInstanceYet) (fun _ _ h => h) hardwareReset_noInstanceYet exec_keeps_noInstanceYet

/-! ### `READY` (R14) -/

/-- Among the operations only an `INIT` with two legal lengths changes `READY`, and it sets it. -/
theorem init_of_ready_changed {i : Instr} {st t : State} (h : exec i st = .next t) (hne : t.ready ≠ st.ready) :
    t.ready = true ∧ i = .init ∧ LegalLength st.klen.toNat ∧ LegalLength st.vlen.toNat := by
  cases effect_of_exec h with
  | initialises hk hv => exact ⟨rfl, rfl, hk, hv⟩
  | _ => exact absurd rfl hne

/-- Settles O40, by the three shapes of a step. -/
theorem readySetByInitClearedByReset : Obligations.ReadySetByInitClearedByReset := by
  intro st t h hne
  rcases step_cases h with ⟨-, rfl⟩ | ⟨rest, hport, rfl⟩ | ⟨w, rest, hport, he⟩
  · exact absurd rfl hne
  · exact .inr ⟨rfl, rest, hport⟩
  · obtain ⟨hready, hinit, hk, hv⟩ := init_of_ready_changed he hne
    exact .inl ⟨hready, w, rest, hport, hinit, hk, hv⟩

/-! ### What does not show (R15, R16, R27) -/

/-- `INIT` reads no cipher state: an error leaves what there was, and a success overwrites it with the same instance. -/
theorem execInit_hides_cipherState (st : State) (P : Table) (s j : Byte) :
    ∃ t P' s' j', execInit st = .next t
      ∧ execInit { st with P := P, s := s, j := j } = .next { t with P := P', s := s', j := j' } := by
  unfold execInit
  cases lengthCheck st.klen st.vlen with
  | error e => exact ⟨_, P, s, j, rfl, rfl⟩
  | ok l => exact ⟨_, _, _, _, rfl, rfl⟩

/-- Settles O41: the cipher state is read by `XFER` only; `INIT` and `START` can write it. -/
theorem cipherStateShowsOnlyThroughXfer : Obligations.CipherStateShowsOnlyThroughXfer := by
  intro i st P s j hi
  cases i with
  | init => exact execInit_hides_cipherState st P s j
  | start =>
    rcases Bool.eq_false_or_eq_true st.ready with hr | hr
    · exact ⟨_, P, s, 0x00, execStart_ready hr, execStart_ready hr⟩
    · exact ⟨_, P, s, j, execStart_notReady hr, execStart_notReady hr⟩
  | xfer b => exact absurd rfl (hi b)
  | _ => exact ⟨_, P, s, j, rfl, rfl⟩

/-- Settles O42: `LDKEY` and `LDIV` write into the buffers, and only `INIT` reads them. -/
theorem keyMaterialUsedOnlyByInit : Obligations.KeyMaterialUsedOnlyByInit := by
  intro i st key iv hi
  cases i with
  | init => exact absurd rfl hi
  | start =>
    rcases Bool.eq_false_or_eq_true st.ready with hr | hr
    · exact ⟨_, key, iv, execStart_ready hr, execStart_ready hr⟩
    · exact ⟨_, key, iv, execStart_notReady hr, execStart_notReady hr⟩
  | xfer b =>
    rcases Bool.eq_false_or_eq_true st.ready with hr | hr
    · exact ⟨_, key, iv, execXfer_ready b hr, execXfer_ready b hr⟩
    · exact ⟨_, key, iv, execXfer_notReady b hr, execXfer_notReady b hr⟩
  | ldkey x b => exact ⟨_, writeAt key (bufSlot x) b, iv, rfl, rfl⟩
  | ldiv x b => exact ⟨_, key, writeAt iv (bufSlot x) b, rfl, rfl⟩
  | _ => exact ⟨_, key, iv, rfl, rfl⟩

/-! ### The reset state (R26) -/

/-- Settles O9: the table and the buffers by what a read of them gives, the rest as written down. -/
theorem resetStateIsAsTabulated : Obligations.ResetStateIsAsTabulated :=
  ⟨tableRead_identityTable, rfl, rfl, rfl, readAt_zeroBuffer, readAt_zeroBuffer, rfl, rfl, rfl, rfl, rfl, by decide⟩

/-- Settles O39: a reset with nothing left at the port is the reset state. -/
theorem resetMeetsInvariants : Obligations.ResetMeetsInvariants :=
  ⟨identityTable_isPermutation, hardwareReset_resultLegal [], hardwareReset_noInstanceYet []⟩

end Sys2Proof.Machine
end

section
/-! SUPPORT. Proofs about the host port (spec/20_memory.md): which operation a read or a write of an address is, read off the
operation map row by row; what the operation then does to the state; and a run of the port as its operations in order. -/

namespace Sys2Proof

/-! ### The operation of each address (R53, R59) -/

/-- The operation a read of address `a` is. -/
def readOperation (a : Byte) : Instr :=
  if a = 0x01 then .rdstatus
  else if a = 0x02 then .rderr
  else if a = 0x03 then .rderrlen
  else if a = 0x04 then .rdklen
  else if a = 0x05 then .rdvlen
  else if a = 0x07 then .rdout
  else .rdRaz a

/-- The operation a write of `d` to address `a` is. -/
def writeOperation (a d : Byte) : Instr :=
  if a = 0x00 ∧ d = 0x01 then .init
  else if a = 0x00 ∧ d = 0x02 then .start
  else if a = 0x00 then .cmdRsvd d
  else if a = 0x04 then .setklen d
  else if a = 0x05 then .setvlen d
  else if a = 0x06 then .xfer d
  else if 0x40 ≤ a.toNat ∧ a.toNat ≤ 0x7F then .ldkey (a.setWidth 6) d
  else if 0x80 ≤ a.toNat ∧ a.toNat ≤ 0xBF then .ldiv (a.setWidth 6) d
  else .wrIgn a d

/-- What the first matching row builds, row by row. -/
theorem build_firstRow_cons (w : OpWord) (last r : OpRow) (rows : List OpRow) :
    (firstRow w last (r :: rows)).build w = if r.takes w then r.build w else (firstRow w last rows).build w :=
  apply_ite (fun q : OpRow => q.build w) ..

/-- Each row's test is of the fields; of a read only the rows of reads are left, and of a write only the rows of writes. -/
theorem decode_word (v : BitVec 1) (a d : Byte) :
    decode (v ++ a ++ d) = if v = 1#1 then writeOperation a d else readOperation a := by
  have hdir : (0#1 = 1#1) = False ∧ (1#1 = 0#1) = False := by decide
  simp only [decode, earlierRows, build_firstRow_cons, rowInit_takes, rowStart_takes, rowCmdRsvd_takes,
    rowSetklen_takes, rowSetvlen_takes, rowXfer_takes, rowLdkey_takes, rowLdiv_takes, rowRdstatus_takes,
    rowRderr_takes, rowRderrlen_takes, rowRdklen_takes, rowRdvlen_takes, rowRdout_takes, rowRdRaz_takes]
  simp only [firstRow, rowCmdRsvd, rowSetklen, rowSetvlen, rowXfer, rowLdkey, rowLdiv, rowRdRaz, rowWrIgn,
    opAddr_word, opData_word, opIndex_word]
  obtain rfl | rfl : v = 0#1 ∨ v = 1#1 := by
    revert v
    decide
  · simp only [hdir, false_and, true_and, if_true, if_false]
    rfl
  · simp only [hdir, false_and, true_and, if_true, if_false]
    rfl

theorem decode_read (a d : Byte) : decode (0#1 ++ a ++ d) = readOperation a := decode_word 0#1 a d

theorem decode_write (a d : Byte) : decode (1#1 ++ a ++ d) = writeOperation a d := decode_word 1#1 a d

theorem rsvdCommand_iff (d : Byte) : rsvdCommand d = true ↔ d ≠ 0x01 ∧ d ≠ 0x02 := by
  simp only [rsvdCommand, Bool.and_eq_true, bne_iff_ne]

/-- A write to `CMD` of a reserved command number (R54). -/
theorem writeOperation_reserved {d : Byte} (hd : rsvdCommand d = true) : writeOperation 0x00 d = .cmdRsvd d := by
  simp only [writeOperation, (rsvdCommand_iff d).1 hd, and_false, if_false, if_true]

/-- The key window has no other row's address. -/
theorem writeOperation_keyWindow {a : Byte} (ha : 0x40 ≤ a.toNat ∧ a.toNat ≤ 0x7F) (d : Byte) :
    writeOperation a d = .ldkey (a.setWidth 6) d := by
  have hlow : a ≠ 0x00 ∧ a ≠ 0x04 ∧ a ≠ 0x05 ∧ a ≠ 0x06 := by bv_omega
  simp only [writeOperation, hlow, ha, false_and, if_false, and_self, if_true]

/-- The IV window has no other row's address. -/
theorem writeOperation_ivWindow {a : Byte} (ha : 0x80 ≤ a.toNat ∧ a.toNat ≤ 0xBF) (d : Byte) :
    writeOperation a d = .ldiv (a.setWidth 6) d := by
  have hlow : a ≠ 0x00 ∧ a ≠ 0x04 ∧ a ≠ 0x05 ∧ a ≠ 0x06 := by bv_omega
  have hkey : ¬ (0x40 ≤ a.toNat ∧ a.toNat ≤ 0x7F) := by omega
  simp only [writeOperation, hlow, hkey, ha, false_and, if_false, and_self, if_true]

/-- A write to an address that no earlier row takes (R59 row 16). -/
theorem writeOperation_ignored {a : Byte} (ha : ignAddress a = true) (d : Byte) :
    writeOperation a d = .wrIgn a d := by
  have hrows : a ≠ 0x00 ∧ a ≠ 0x04 ∧ a ≠ 0x05 ∧ a ≠ 0x06 ∧ ¬ (0x40 ≤ a.toNat ∧ a.toNat ≤ 0x7F)
      ∧ ¬ (0x80 ≤ a.toNat ∧ a.toNat ≤ 0xBF) := by
    revert a
    decide
  simp only [writeOperation, hrows, false_and, if_false]

/-- A read of an address that no earlier row takes (R59 row 15). -/
theorem readOperation_zero {a : Byte} (ha : razAddress a = true) : readOperation a = .rdRaz a := by
  revert a
  decide

/-- The address of `KEY[x]` lies in the key window and ends in the index `x` (R52). -/
theorem keyAddr_fields (x : BufIndex) :
    (0x40 ≤ (keyAddr x).toNat ∧ (keyAddr x).toNat ≤ 0x7F) ∧ (keyAddr x).setWidth 6 = x := by
  revert x
  decide

/-- The address of `IV[x]` lies in the IV window and ends in the index `x` (R52). -/
theorem ivAddr_fields (x : BufIndex) :
    (0x80 ≤ (ivAddr x).toNat ∧ (ivAddr x).toNat ≤ 0xBF) ∧ (ivAddr x).setWidth 6 = x := by
  revert x
  decide

/-- A well-formed operation is the meaning of its own canonical word (R51). -/
theorem decode_encode {i : Instr} (hi : i.wf = true) : decode (encode i) = i := by
  cases i with
  | cmdRsvd d => exact (decode_write _ _).trans (writeOperation_reserved hi)
  | setklen n => exact decode_write 0x04 n
  | setvlen n => exact decode_write 0x05 n
  | xfer b => exact decode_write 0x06 b
  | ldkey x b =>
    obtain ⟨hwindow, hindex⟩ := keyAddr_fields x
    rw [encode, hostWriteWord, decode_write, writeOperation_keyWindow hwindow, hindex]
  | ldiv x b =>
    obtain ⟨hwindow, hindex⟩ := ivAddr_fields x
    rw [encode, hostWriteWord, decode_write, writeOperation_ivWindow hwindow, hindex]
  | rdRaz a => exact (decode_read _ _).trans (readOperation_zero hi)
  | wrIgn a d => exact (decode_write _ _).trans (writeOperation_ignored hi d)
  | init | start => exact decode_write 0x00 _
  | rdstatus | rderr | rderrlen | rdklen | rdvlen | rdout => exact decode_read _ 0x00

end Sys2Proof

namespace Sys2Proof.Machine

open Sys2Proof.Safety

/-! ### Reads and writes of the register map (R31) -/

/-- The byte a read of address `a` returns (R31, column "what a read returns"). -/
def registerByte (a : Byte) (st : State) : Byte :=
  if a = 0x01 then statusView st
  else if a = 0x02 then st.errcode
  else if a = 0x03 then st.errlen
  else if a = 0x04 then st.klen
  else if a = 0x05 then st.vlen
  else if a = 0x07 then st.dout
  else 0x00

theorem exec_readOperation (a : Byte) (st : State) :
    exec (readOperation a) st = .next (returnByte (registerByte a st) st) := by
  unfold readOperation registerByte
  split_ifs <;> rfl

/-- Settles O11: the read row of each address returns that register's byte. -/
theorem registerMapReads : Obligations.RegisterMapReads := by
  intro st a d rest hport
  rw [step_operation hport, decode_read, exec_readOperation]
  rfl

theorem step_write {st : State} {a d : Byte} {rest : List PortEvent}
    (hport : st.pending = .operation (1#1 ++ a ++ d) :: rest) :
    step st = exec (writeOperation a d) { st with rdata := none, pending := rest } := by
  rw [step_operation hport, decode_write]
  rfl

/-- A buffer after a write through one of its window's addresses: the windows start at multiples of 64 (R52). -/
theorem readAt_writeAt_bufSlot (m : Buffer) (a d : Byte) (y : Fin 64) :
    readAt (writeAt m (bufSlot (a.setWidth 6)) d) y = if y.val = a.toNat % 64 then d else readAt m y := by
  have hslot : (bufSlot (a.setWidth 6)).val = a.toNat % 64 := by simp [bufSlot]
  rw [readAt_writeAt]
  simp only [Fin.ext_iff, hslot]

/-- Settles O12, one row of the write map for each clause. -/
theorem registerMapWrites : Obligations.RegisterMapWrites := by
  intro st a d rest hport st'
  have hstep : step st = exec (writeOperation a d) st' := step_write hport
  refine ⟨?cmdInit, ?cmdStart, ?cmdReserved, ?klen, ?vlen, ?din, ?keyWindow, ?ivWindow, ?ignored⟩
  case cmdInit => rintro rfl rfl; exact hstep
  case cmdStart => rintro rfl rfl; exact hstep
  case cmdReserved =>
    rintro rfl hinit hstart
    rw [hstep, writeOperation_reserved ((rsvdCommand_iff d).2 ⟨hinit, hstart⟩)]
    rfl
  case klen => rintro rfl; exact hstep
  case vlen => rintro rfl; exact hstep
  case din => rintro rfl; exact hstep
  case keyWindow =>
    intro hmin hmax
    have hoffset : a.toNat % 64 = a.toNat - 0x40 := by omega
    refine ⟨writeAt st.key (bufSlot (a.setWidth 6)) d, ?_, hoffset ▸ readAt_writeAt_bufSlot st.key a d⟩
    rw [hstep, writeOperation_keyWindow ⟨hmin, hmax⟩]
    rfl
  case ivWindow =>
    intro hmin hmax
    have hoffset : a.toNat % 64 = a.toNat - 0x80 := by omega
    refine ⟨writeAt st.iv (bufSlot (a.setWidth 6)) d, ?_, hoffset ▸ readAt_writeAt_bufSlot st.iv a d⟩
    rw [hstep, writeOperation_ivWindow ⟨hmin, hmax⟩]
    rfl
  case ignored =>
    intro ha
    rw [hstep, writeOperation_ignored (by simpa [ignAddress, or_assoc] using ha)]
    rfl

/-! ### Storing twice (R35) -/

/-- Settles O18: the second write to the same place stores what the first one left there. -/
theorem storingWritesAreIdempotent : Obligations.StoringWritesAreIdempotent := by
  intro i st t hi h
  rcases hi with ⟨n, rfl⟩ | ⟨n, rfl⟩ | ⟨x, b, rfl⟩ | ⟨x, b, rfl⟩ <;> obtain rfl := Host.Outcome.next.inj h
  · rfl
  · rfl
  · simp only [exec, execLdkey, writeAt_writeAt_same]
  · simp only [exec, execLdiv, writeAt_writeAt_same]

/-! ### A run of the port (R39) -/

/-- What is still to come at the port has no part in an operation (R39). -/
theorem exec_pending (i : Instr) (st : State) :
    ∃ t, exec i st = .next t
      ∧ ∀ port : List PortEvent, exec i { st with pending := port } = .next { t with pending := port } := by
  cases i with
  | init =>
    simp only [exec, execInit]
    cases lengthCheck st.klen st.vlen with
    | error e => exact ⟨_, rfl, fun _ => rfl⟩
    | ok l => exact ⟨_, rfl, fun _ => rfl⟩
  | start =>
    rcases Bool.eq_false_or_eq_true st.ready with hr | hr
    · exact ⟨_, execStart_ready hr, fun _ => execStart_ready hr⟩
    · exact ⟨_, execStart_notReady hr, fun _ => execStart_notReady hr⟩
  | xfer b =>
    rcases Bool.eq_false_or_eq_true st.ready with hr | hr
    · exact ⟨_, execXfer_ready b hr, fun _ => execXfer_ready b hr⟩
    · exact ⟨_, execXfer_notReady b hr, fun _ => execXfer_notReady b hr⟩
  | _ => exact ⟨_, rfl, fun _ => rfl⟩

/-- A step on a well-formed operation at the port performs it. -/
theorem step_asEvent {i : Instr} (hi : i.wf = true) (st : State) (rest : List PortEvent) :
    step { st with pending := asEvent i :: rest } = perform i { st with pending := rest } := by
  rw [step_operation (w := encode i) (rest := rest) rfl, decode_encode hi]
  rfl

theorem runSteps_succ {n : Nat} {st t : State} (h : step st = .next t) : runSteps (n + 1) st = runSteps n t := by
  simp [runSteps, h]

/-- Settles O13, by induction on the operations: each step performs the first and leaves the others at the port. -/
theorem portRunPerformsOperationsInOrder : Obligations.PortRunPerformsOperationsInOrder := by
  intro is st rest hwf
  induction is generalizing st with
  | nil => rfl
  | cons i is ih =>
    obtain ⟨hi, his⟩ := List.forall_mem_cons.1 hwf
    obtain ⟨t, -, ht⟩ := exec_pending i { st with rdata := none }
    have hstep : step { st with pending := (i :: is).map asEvent ++ rest }
        = .next { t with pending := is.map asEvent ++ rest } :=
      (step_asEvent hi st _).trans (ht _)
    rw [List.length_cons, runSteps_succ hstep, runOps_cons (show perform i { st with pending := rest } = _ from ht rest)]
    exact ih t his

end Sys2Proof.Machine
end

section
/-! SUPPORT. Proofs about encoding and decoding (spec/30_encoding.md): the operation of an address and its word determine each
other, and the decoder's answer is that of the first matching row. -/

namespace Sys2Proof

/-! ### From a word to its operation and back (R51, R59) -/

/-- An address of the key window is that of the buffer entry its low six bits name (R52). -/
theorem keyAddr_index {a : Byte} (ha : 0x40 ≤ a.toNat ∧ a.toNat ≤ 0x7F) : keyAddr (a.setWidth 6) = a := by
  revert a
  decide

/-- An address of the IV window is that of the buffer entry its low six bits name (R52). -/
theorem ivAddr_index {a : Byte} (ha : 0x80 ≤ a.toNat ∧ a.toNat ≤ 0xBF) : ivAddr (a.setWidth 6) = a := by
  revert a
  decide

/-- Row 16 admits the addresses that no earlier write row takes. -/
theorem ignAddress_of_no_row {a : Byte} (hcmd : a ≠ 0x00) (hklen : a ≠ 0x04) (hvlen : a ≠ 0x05) (hdin : a ≠ 0x06)
    (hkey : ¬ (0x40 ≤ a.toNat ∧ a.toNat ≤ 0x7F)) (hiv : ¬ (0x80 ≤ a.toNat ∧ a.toNat ≤ 0xBF)) :
    ignAddress a = true := by
  simp only [ignAddress, Bool.or_eq_true, Bool.and_eq_true, beq_iff_eq, decide_eq_true_eq]
  bv_omega

/-- Row 15 admits the addresses that no earlier read row takes. -/
theorem razAddress_of_no_row {a : Byte} (hstatus : a ≠ 0x01) (herr : a ≠ 0x02) (herrlen : a ≠ 0x03)
    (hklen : a ≠ 0x04) (hvlen : a ≠ 0x05) (hdout : a ≠ 0x07) : razAddress a = true := by
  simp only [razAddress, Bool.or_eq_true, beq_iff_eq, decide_eq_true_eq]
  bv_omega

/-- A write's operation is well formed, and its canonical word is the write itself. -/
theorem writeOperation_wf_encode (a d : Byte) :
    (writeOperation a d).wf = true ∧ encode (writeOperation a d) = hostWriteWord a d := by
  unfold writeOperation
  split_ifs with hinit hstart hcmd hklen hvlen hdin hkey hiv
  · obtain ⟨rfl, rfl⟩ := hinit
    exact ⟨rfl, rfl⟩
  · obtain ⟨rfl, rfl⟩ := hstart
    exact ⟨rfl, rfl⟩
  · have hreserved : rsvdCommand d = true := (rsvdCommand_iff d).2 ⟨fun h => hinit ⟨hcmd, h⟩, fun h => hstart ⟨hcmd, h⟩⟩
    exact ⟨hreserved, hcmd ▸ rfl⟩
  · exact ⟨rfl, hklen ▸ rfl⟩
  · exact ⟨rfl, hvlen ▸ rfl⟩
  · exact ⟨rfl, hdin ▸ rfl⟩
  · exact ⟨rfl, congrArg (hostWriteWord · d) (keyAddr_index hkey)⟩
  · exact ⟨rfl, congrArg (hostWriteWord · d) (ivAddr_index hiv)⟩
  · exact ⟨ignAddress_of_no_row hcmd hklen hvlen hdin hkey hiv, rfl⟩

/-- A read's operation is well formed, and its canonical word is the read with `D` cleared. -/
theorem readOperation_wf_encode (a : Byte) :
    (readOperation a).wf = true ∧ encode (readOperation a) = hostReadWord a := by
  unfold readOperation
  split_ifs with hstatus herr herrlen hklen hvlen hdout
  · exact ⟨rfl, hstatus ▸ rfl⟩
  · exact ⟨rfl, herr ▸ rfl⟩
  · exact ⟨rfl, herrlen ▸ rfl⟩
  · exact ⟨rfl, hklen ▸ rfl⟩
  · exact ⟨rfl, hvlen ▸ rfl⟩
  · exact ⟨rfl, hdout ▸ rfl⟩
  · exact ⟨razAddress_of_no_row hstatus herr herrlen hklen hvlen hdout, rfl⟩

/-- The mask of `W` and `A` clears `D` and nothing else. -/
theorem word_and_clearData (v : BitVec 1) (a d : Byte) : (v ++ a ++ d) &&& 0x1FF00#17 = v ++ a ++ 0x00#8 := by
  have hmask : 0x1FF00#17 = 1#1 ++ 0xFF#8 ++ 0x00#8 := rfl
  rw [hmask, BitVec.and_append, BitVec.and_append, and_one_bit, and_all_bits, and_no_bits]

/-- Every word is a read or a write. -/
theorem word_eq_read_or_write (w : OpWord) : ∃ a d : Byte, w = 0#1 ++ a ++ d ∨ w = 1#1 ++ a ++ d := by
  refine ⟨opAddr w, opData w, ?_⟩
  rcases BitVec.eq_zero_or_eq_one (opWriteVec w) with hv | hv
  · exact .inl (hv ▸ word_eq_fields w)
  · exact .inr (hv ▸ word_eq_fields w)

/-- Settles O2, one case for each row of the operation map. -/
theorem decodeOfEncode : Obligations.DecodeOfEncode :=
  fun _ => decode_encode

/-- Settles O3: a word's operation is its address's, and that operation's word is the word of the same address. -/
theorem encodeOfDecode : Obligations.EncodeOfDecode := by
  intro w
  obtain ⟨a, d, rfl | rfl⟩ := word_eq_read_or_write w
  · rw [decode_read, opWriteBit_word, word_and_clearData]
    exact readOperation_wf_encode a
  · rw [decode_write, opWriteBit_word]
    exact writeOperation_wf_encode a d

/-! ### The first matching row (R53) -/

/-- Where some row takes the word, the one chosen is the first that does. -/
theorem find?_takes_eq_firstRow {w : OpWord} {last : OpRow} {rows : List OpRow}
    (h : ∃ r ∈ rows ++ [last], r.takes w = true) :
    (rows ++ [last]).find? (·.takes w) = some (firstRow w last rows) := by
  induction rows with
  | nil =>
    obtain ⟨r, hr, hw⟩ := h
    obtain rfl := List.mem_singleton.1 hr
    exact List.find?_cons_of_pos hw
  | cons q rows ih =>
    rw [firstRow, List.cons_append, List.find?_cons]
    cases hq : q.takes w with
    | true => rfl
    | false =>
      obtain ⟨r, hr, hw⟩ := h
      rcases List.mem_cons.1 hr with rfl | hr
      · exact absurd hw (by simp [hq])
      · exact ih ⟨r, hr, hw⟩

/-- Row 15 takes every read and row 16 every write (R60). -/
theorem exists_row_takes (w : OpWord) : ∃ r ∈ opTable, r.takes w = true := by
  obtain ⟨a, d, rfl | rfl⟩ := word_eq_read_or_write w
  · exact ⟨rowRdRaz, by simp [opTable, earlierRows], (rowRdRaz_takes 0#1 a d).2 rfl⟩
  · exact ⟨rowWrIgn, by simp [opTable], (rowWrIgn_takes 1#1 a d).2 rfl⟩

/-- Settles O4: the decoder's choice is the first row of the map that takes the word, and one always does. -/
theorem decodeIsFirstMatchingRow : Obligations.DecodeIsFirstMatchingRow := by
  intro w
  have hfirst : opTable.find? (·.takes w) = some (firstRow w rowWrIgn earlierRows) :=
    find?_takes_eq_firstRow (exists_row_takes w)
  obtain ⟨htakes, earlier, later, htable, hearlier⟩ := List.find?_eq_some_iff_append.1 hfirst
  refine ⟨earlier, _, later, htable, beq_iff_eq.1 htakes, fun q hq hmatch => ?_, rfl⟩
  have hnot : q.takes w = false := by simpa using hearlier q hq
  exact absurd (beq_iff_eq.2 hmatch) (ne_true_of_eq_false hnot)

/-! ### Which row takes which address (R60) -/

/-- In the key window the index counts from the window's start. -/
theorem keyIndex_eq_offset {a : Byte} (ha : 0x40 ≤ a.toNat ∧ a.toNat ≤ 0x7F) :
    a.setWidth 6 = BitVec.ofNat 6 (a.toNat - 0x40) := by
  bv_omega

/-- In the IV window the index counts from the window's start. -/
theorem ivIndex_eq_offset {a : Byte} (ha : 0x80 ≤ a.toNat ∧ a.toNat ≤ 0xBF) :
    a.setWidth 6 = BitVec.ofNat 6 (a.toNat - 0x80) := by
  bv_omega

/-- Settles O5: the rows of reads are the map's as they stand; of the writes, the two fixed commands come under `CMD`'s
address, and the two windows' indices are offsets. -/
theorem operationMapIsComplete : Obligations.OperationMapIsComplete := by
  refine fun a d => ⟨?_, decode_read a d⟩
  rw [decode_write, writeOperation]
  by_cases hcmd : a = 0x00
  · simp only [hcmd, true_and, if_true]
  · simp only [hcmd, false_and, if_false]
    split_ifs with hklen hvlen hdin hkey hiv
    · rfl
    · rfl
    · rfl
    · rw [keyIndex_eq_offset hkey]
    · rw [ivIndex_eq_offset hiv]
    · rfl

/-- Settles O1, by running the decoder on the eleven words. -/
theorem sampleWordsDecode : Obligations.SampleWordsDecode := by
  unfold Obligations.SampleWordsDecode
  decide

end Sys2Proof
end

section
/-! SUPPORT. Proofs about the key schedule (spec/40_key_schedule.md): the loading operations, each word with its one write, and
the three branches of `INIT`, an equation each. -/

namespace Sys2Proof

/-! ### The words of the loading operations (R50, R52) -/

/-- A word with a clear `D` field, or'ed with a byte, carries that byte in its `D` field. -/
theorem word_or_data (v : BitVec 1) (a d : Byte) : v ++ a ++ 0x00#8 ||| d.setWidth 17 = v ++ a ++ d := by
  have hfields : d.setWidth 17 = 0#1 ++ 0x00#8 ++ d := by
    revert d
    decide
  rw [hfields, BitVec.or_append, BitVec.or_append, BitVec.or_zero, BitVec.or_zero, BitVec.zero_or]

theorem ldkey_word (x : BufIndex) (b : Byte) :
    0x14000#17 ||| x.setWidth 17 <<< 8 ||| b.setWidth 17 = encode (.ldkey x b) := by
  have haddr : 0x14000#17 ||| x.setWidth 17 <<< 8 = 1#1 ++ keyAddr x ++ 0x00#8 := by
    revert x
    decide
  rw [haddr, word_or_data]
  rfl

theorem ldiv_word (x : BufIndex) (b : Byte) :
    0x18000#17 ||| x.setWidth 17 <<< 8 ||| b.setWidth 17 = encode (.ldiv x b) := by
  have haddr : 0x18000#17 ||| x.setWidth 17 <<< 8 = 1#1 ++ ivAddr x ++ 0x00#8 := by
    revert x
    decide
  rw [haddr, word_or_data]
  rfl

end Sys2Proof

namespace Sys2Proof.Machine

open Sys2Proof.Safety

/-! ### `INIT`, branch by branch (R74, R75) -/

theorem execInit_illegalKeyLength {st : State} (hk : ¬ LegalLength st.klen.toNat) :
    execInit st = .next (failWith .invalidKeySize st.klen st) := by
  rcases execInit_cases st with ⟨-, e⟩ | ⟨hk', -⟩ | ⟨hk', -⟩
  · exact e
  · exact absurd hk' hk
  · exact absurd hk' hk

theorem execInit_illegalIvLength {st : State} (hk : LegalLength st.klen.toNat) (hv : ¬ LegalLength st.vlen.toNat) :
    execInit st = .next (failWith .invalidIvSize st.vlen st) := by
  rcases execInit_cases st with ⟨hk', -⟩ | ⟨-, -, e⟩ | ⟨-, hv', -⟩
  · exact absurd hk hk'
  · exact e
  · exact absurd hv' hv

/-- The instance stays a variable, as in `execInit_cases`. -/
theorem execInit_legalLengths {st : State} (hk : LegalLength st.klen.toNat) (hv : LegalLength st.vlen.toNat) :
    ∃ c, c = construct st.key ⟨st.klen.toNat, hk⟩ st.iv ⟨st.vlen.toNat, hv⟩
      ∧ execInit st = .next (succeed (zeroise (openInstance (installCipher c st)))) := by
  rcases execInit_cases st with ⟨hk', -⟩ | ⟨-, hv', -⟩ | ⟨_, _, h⟩
  · exact absurd hk hk'
  · exact absurd hv hv'
  · exact h

/-- Settles O19: an equation for each branch, and the engine's construction as the source's. -/
theorem initFollowsItsRule : Obligations.InitFollowsItsRule := by
  refine ⟨decode_encode (i := .init) rfl, fun st => ⟨execInit_illegalKeyLength, execInit_illegalIvLength, ?_⟩⟩
  intro hk hv source
  obtain ⟨c, hc, e⟩ := execInit_legalLengths hk hv
  have hsoft : c.soft = source := hc ▸ soft_construct ..
  exact ⟨_, e, congrFun (congrArg SoftCipher.P hsoft), congrArg SoftCipher.s hsoft,
    readAt_zeroBuffer, readAt_zeroBuffer, rfl⟩

/-! ### What the construction reads (R38, R74) -/

/-- A round reads only the bytes below the length it is given. -/
theorem scheduleRound_congr {M M' : Buffer} {mlen : MsgLen}
    (hM : ∀ x, x < mlen.val → bufferByte M' x = bufferByte M x) (c : Cipher) :
    scheduleRound M' mlen c = scheduleRound M mlen c := by
  have hpos : 0 < mlen.val := Nat.lt_of_lt_of_le (by decide) mlen.property.1
  have hstep : scheduleStep M' mlen = scheduleStep M mlen := by
    funext c i
    simp only [scheduleStep, readAt_msgSlot, hM _ (Nat.mod_lt i hpos)]
  rw [scheduleRound_eq, scheduleRound_eq, hstep]

/-- Two constructions over the same lengths and the same bytes below them give the same instance. -/
theorem construct_congr {K K' V V' : Buffer} {klen klen' vlen vlen' : MsgLen} (hk : klen' = klen) (hv : vlen' = vlen)
    (hK : ∀ x, x < klen.val → bufferByte K' x = bufferByte K x)
    (hV : ∀ x, x < vlen.val → bufferByte V' x = bufferByte V x) :
    construct K' klen' V' vlen' = construct K klen V vlen := by
  subst hk hv
  rw [construct, scheduleRound_congr hK, scheduleRound_congr hV, construct]

/-- Settles O20: both constructions read the same bytes, and a successful `INIT` writes every field of the engine's own. -/
theorem initDependsOnlyOnStatedMaterial : Obligations.InitDependsOnlyOnStatedMaterial := by
  intro st st' hk hv hklen hvlen hkey hiv
  have hk' : LegalLength st'.klen.toNat := hklen ▸ hk
  have hv' : LegalLength st'.vlen.toNat := hvlen ▸ hv
  obtain ⟨c, hc, e⟩ := execInit_legalLengths hk hv
  obtain ⟨c', hc', e'⟩ := execInit_legalLengths hk' hv'
  have hsame : c' = c := by
    rw [hc, hc']
    exact construct_congr (Subtype.ext (congrArg BitVec.toNat hklen)) (Subtype.ext (congrArg BitVec.toNat hvlen))
      hkey hiv
  exact ⟨_, e, hsame ▸ e'⟩

/-- Settles O21: a successful `INIT` erases `KLEN`, and 0 is no legal key length. -/
theorem secondInitWithoutReloadFails : Obligations.SecondInitWithoutReloadFails := by
  intro st t hk hv h
  obtain ⟨hklen, hready⟩ : t.klen = 0 ∧ t.ready = true := by
    obtain ⟨c, -, e⟩ := execInit_legalLengths hk hv
    obtain rfl := Host.Outcome.next.inj (e.symm.trans h)
    exact ⟨rfl, rfl⟩
  have hillegal : ¬ LegalLength t.klen.toNat := by
    rw [hklen]
    decide
  have hfails := execInit_illegalKeyLength hillegal
  rw [hklen] at hfails
  exact ⟨hfails, hready⟩

/-! ### Loading (R70 to R73) -/

/-- Settles O14: the word is the canonical one, and the meaning is the write. -/
theorem setklenWritesKlen : Obligations.SetklenWritesKlen :=
  fun n _ => ⟨(congrArg decode (word_or_data 1#1 0x04 n)).trans (decode_encode (i := .setklen n) rfl), rfl⟩

/-- Settles O15: the word is the canonical one, and the meaning is the write. -/
theorem setvlenWritesVlen : Obligations.SetvlenWritesVlen :=
  fun n _ => ⟨(congrArg decode (word_or_data 1#1 0x05 n)).trans (decode_encode (i := .setvlen n) rfl), rfl⟩

/-- A buffer after a write of the entry an index names (R52). -/
theorem readAt_writeAt_index (m : Buffer) (x : BufIndex) (b : Byte) (y : Fin 64) :
    readAt (writeAt m (bufSlot x) b) y = if y.val = x.toNat then b else readAt m y := by
  simp only [readAt_writeAt, Fin.ext_iff]
  rfl

/-- Settles O16: the word is the canonical one, and the meaning writes the entry its index names. -/
theorem ldkeyWritesOneKeyByte : Obligations.LdkeyWritesOneKeyByte :=
  fun x b st => ⟨_, (congrArg decode (ldkey_word x b)).trans (decode_encode rfl), rfl,
    readAt_writeAt_index st.key x b, rfl⟩

/-- Settles O17: the word is the canonical one, and the meaning writes the entry its index names. -/
theorem ldivWritesOneIvByte : Obligations.LdivWritesOneIvByte :=
  fun x b st => ⟨_, (congrArg decode (ldiv_word x b)).trans (decode_encode rfl), rfl,
    readAt_writeAt_index st.iv x b, rfl⟩

end Sys2Proof.Machine
end

section
/-! SUPPORT. Proofs about the keystream and the transform (spec/41_keystream_transform.md): what `START` and `XFER` leave on a
ready engine; a run of `XFER` and `RDOUT` pairs as the source's loop; and the laws of that loop, carried over to the engine. -/

namespace Sys2Proof.Machine

open Sys2Proof.Safety

/-! ### `START`, `XFER` and `RDOUT` (R90 to R93) -/

/-- What `START` leaves on a ready engine. -/
def openCall (st : State) : State := succeed { st with j := 0x00 }

/-- What `XFER b` leaves on a ready engine. -/
def transformByte (b : Byte) (st : State) : State := succeed (emitByte b (genStep st.P st.s st.j) st)

theorem exec_start {st : State} (hr : st.ready = true) : exec .start st = .next (openCall st) := execStart_ready hr

theorem exec_xfer {st : State} (b : Byte) (hr : st.ready = true) : exec (.xfer b) st = .next (transformByte b st) :=
  execXfer_ready b hr

/-- Settles O23: the word is the canonical one, and each branch writes what its rule says. -/
theorem startOpensCall : Obligations.StartOpensCall :=
  ⟨decode_encode (i := .start) rfl, fun _ => ⟨exec_start, execStart_notReady⟩⟩

/-- Settles O24: the word is the canonical one, and the table is the swapped one, read entry by entry. -/
theorem xferTransformsOneByte : Obligations.XferTransformsOneByte :=
  fun b _ => ⟨(congrArg decode (word_or_data 1#1 0x06 b)).trans (decode_encode (i := .xfer b) rfl),
    fun hr => ⟨_, exec_xfer b hr, tableRead_tableSwap _ _ _, rfl⟩, execXfer_notReady b⟩

/-- Settles O26: the word is a read of `0x07`, whatever its `D`. -/
theorem rdoutReturnsOutputByte : Obligations.RdoutReturnsOutputByte :=
  fun d _ => ⟨(congrArg decode (word_or_data 0#1 0x07 d)).trans (decode_read 0x07 d), rfl⟩

/-! ### What a sequence returns (R50) -/

/-- A write returns nothing. -/
theorem perform_write_rdata {i : Instr} {st t : State} (hi : i.isWrite = true) (h : perform i st = .next t) :
    t.rdata = none := by
  cases effect_of_exec h with
  | returns v hread => exact absurd (hi.symm.trans hread) Bool.false_ne_true.symm
  | _ => rfl

theorem bytesRead_cons_write {i : Instr} {is : List Instr} {st t : State} (hi : i.isWrite = true)
    (h : perform i st = .next t) : bytesRead (i :: is) st = bytesRead is t := by
  rw [bytesRead, responses_cons h, perform_write_rdata hi h]
  rfl

theorem bytesRead_cons_rdout (is : List Instr) (st : State) :
    bytesRead (.rdout :: is) st = st.dout :: bytesRead is (returnByte st.dout st) := rfl

theorem bytesRead_writes {is : List Instr} (his : ∀ i ∈ is, i.isWrite = true) (st : State) : bytesRead is st = [] := by
  induction is generalizing st with
  | nil => rfl
  | cons i is ih =>
    obtain ⟨hi, his⟩ := List.forall_mem_cons.1 his
    obtain ⟨t, ht⟩ := perform_answers_next i st
    rw [bytesRead_cons_write hi ht, ih his]

/-- What was returned for earlier operations shows in a run at most as the byte last returned. -/
theorem runOps_rdata {is : List Instr} {st t : State} (h : runOps is st = .next t) (r : Option Byte) :
    ∃ r', runOps is { st with rdata := r } = .next { t with rdata := r' } := by
  cases is with
  | nil => exact ⟨r, by obtain rfl := Host.Outcome.next.inj h; rfl⟩
  | cons i is => exact ⟨t.rdata, h⟩

theorem bytesRead_rdata (is : List Instr) (st : State) (r : Option Byte) :
    bytesRead is { st with rdata := r } = bytesRead is st := by
  cases is <;> rfl

/-! ### A byte of a call: `XFER b; RDOUT` (R57) -/

/-- What `XFER b; RDOUT` leaves on a ready engine. -/
def callByte (b : Byte) (st : State) : State := returnByte (transformByte b st).dout (transformByte b st)

/-- What `XFER b; RDOUT` for each byte of the data leaves on a ready engine. -/
def callBytes (src : List Byte) (st : State) : State := src.foldl (fun t b => callByte b t) st

theorem perform_xfer {st : State} (b : Byte) (hr : st.ready = true) :
    perform (.xfer b) st = .next (transformByte b { st with rdata := none }) := exec_xfer b hr

theorem continueOps_cons (b : Byte) (src : List Byte) :
    continueOps (b :: src) = .xfer b :: .rdout :: continueOps src := rfl

theorem continueOps_append (src src' : List Byte) :
    continueOps (src ++ src') = continueOps src ++ continueOps src' := List.flatMap_append

theorem runOps_continueOps (src : List Byte) {st : State} (hr : st.ready = true) :
    runOps (continueOps src) st = .next (callBytes src st) := by
  induction src generalizing st with
  | nil => rfl
  | cons b src ih =>
    rw [continueOps_cons, runOps_cons (perform_xfer b hr)]
    exact ih (st := callByte b st) hr

/-- One byte of a call is one iteration of the source's loop. -/
theorem softGenStep_softOf (b : Byte) (st : State) :
    softGenStep (softOf st) st.j b
      = (softOf (callByte b st), (callByte b st).j, (callByte b st).dout) := by
  have hswap := tableRead_tableSwap_eq_softSwap st.P st.j (genStep st.P st.s st.j).s
  simp only [softOf, callByte, transformByte, returnByte_P, setResult_P, emitByte_P, genStep_P, hswap]
  rfl

/-- The bytes a call goes on to return are the source's (R94). -/
theorem bytesRead_continueOps (src : List Byte) {st : State} (hr : st.ready = true) :
    bytesRead (continueOps src) st = (softTransformFrom (softOf st) st.j src).2 := by
  induction src generalizing st with
  | nil => rfl
  | cons b src ih =>
    rw [continueOps_cons, bytesRead_cons_write rfl (perform_xfer b hr), bytesRead_cons_rdout, softTransformFrom,
      softGenStep_softOf]
    exact congrArg (List.cons _) (ih (st := callByte b st) hr)

/-- The instance a run of bytes leaves is the source's (R94). -/
theorem softOf_callBytes (src : List Byte) (st : State) :
    softOf (callBytes src st) = (softTransformFrom (softOf st) st.j src).1 := by
  induction src generalizing st with
  | nil => rfl
  | cons b src ih =>
    rw [softTransformFrom, softGenStep_softOf]
    exact ih (callByte b st)

/-- `j` counts the bytes of a call modulo 256 (R13). -/
theorem callBytes_j (src : List Byte) (st : State) : (callBytes src st).j = st.j + BitVec.ofNat 8 src.length := by
  induction src generalizing st with
  | nil => exact (BitVec.add_zero st.j).symm
  | cons b src ih =>
    rw [List.length_cons, Nat.add_comm, BitVec.ofNat_add, ← BitVec.add_assoc]
    exact ih (callByte b st)

/-- What a run of bytes leaves as it was, where the result already is that of a success. -/
theorem callBytes_frame (src : List Byte) {st : State} (hresult : succeed st = st) :
    callBytes src st = { st with
      P := (callBytes src st).P, s := (callBytes src st).s, j := (callBytes src st).j,
      dout := (callBytes src st).dout, errcode := 0, errlen := 0, rdata := (callBytes src st).rdata } := by
  induction src generalizing st with
  | nil => exact hresult.symm
  | cons b src ih => exact ih (st := callByte b st) rfl

/-! ### A call (R94) -/

/-- What a call leaves on a ready engine: `START` clears the byte last returned. -/
def afterCall (src : List Byte) (st : State) : State := callBytes src (openCall { st with rdata := none })

theorem perform_start {st : State} (hr : st.ready = true) :
    perform .start st = .next (openCall { st with rdata := none }) := exec_start hr

theorem runOps_transformOps (src : List Byte) {st : State} (hr : st.ready = true) :
    runOps (transformOps src) st = .next (afterCall src st) :=
  (runOps_cons (perform_start hr)).trans (runOps_continueOps src hr)

theorem bytesRead_transformOps (src : List Byte) {st : State} (hr : st.ready = true) :
    bytesRead (transformOps src) st = (softTransform (softOf st) src).2 :=
  (bytesRead_cons_write rfl (perform_start hr)).trans (bytesRead_continueOps src hr)

theorem afterCall_j (src : List Byte) (st : State) : (afterCall src st).j = BitVec.ofNat 8 src.length :=
  (callBytes_j src _).trans (BitVec.zero_add _)

theorem afterCall_frame (src : List Byte) (st : State) :
    afterCall src st = { st with
      P := (afterCall src st).P, s := (afterCall src st).s, j := (afterCall src st).j,
      dout := (afterCall src st).dout, errcode := 0, errlen := 0, rdata := (afterCall src st).rdata } :=
  callBytes_frame src rfl

/-- Settles O44: the call opens with `j = 0`, and each byte after it is one iteration of the source's loop. -/
theorem callIsSourceTransform : Obligations.CallIsSourceTransform := by
  intro st src hr
  have hsoft : softOf (afterCall src st) = (softTransform (softOf st) src).1 := softOf_callBytes src _
  exact ⟨_, runOps_transformOps src hr, bytesRead_transformOps src hr, congrFun (congrArg SoftCipher.P hsoft),
    congrArg SoftCipher.s hsoft, afterCall_j src st, afterCall_frame src st⟩

/-- Settles O45: a first call of that length leaves `j = 0` and a success, so the second `START` changes nothing. -/
theorem callsSplitAtMultipleOf256 : Obligations.CallsSplitAtMultipleOf256 := by
  intro st src src' hr hlength
  have hready : (afterCall src st).ready = true := (congrArg State.ready (afterCall_frame src st)).trans hr
  have hj : (afterCall src st).j = 0 := by
    rw [afterCall_j]
    exact BitVec.eq_of_toNat_eq ((BitVec.toNat_ofNat ..).trans hlength)
  have hreopen : openCall { afterCall src st with rdata := none } = { afterCall src st with rdata := none } := by
    rw [afterCall_frame, hj]
    rfl
  have hstart : perform .start (afterCall src st) = .next { afterCall src st with rdata := none } := by
    rw [perform_start hready, hreopen]
  have hfirst := runOps_transformOps src hr
  have hone : transformOps (src ++ src') = transformOps src ++ continueOps src' := by
    rw [transformOps, continueOps_append]
    rfl
  have hrest := runOps_continueOps src' hready
  obtain ⟨r, hrest'⟩ := runOps_rdata hrest none
  refine ⟨{ callBytes src' (afterCall src st) with rdata := r }, callBytes src' (afterCall src st), ?_, ?_, ?_, rfl⟩
  · rw [hone, bytesRead_append hfirst, bytesRead_append hfirst]
    exact congrArg _ ((bytesRead_cons_write rfl hstart).trans (bytesRead_rdata ..))
  · exact (runOps_append hfirst).trans ((runOps_cons hstart).trans hrest')
  · exact hone ▸ (runOps_append hfirst).trans hrest

/-! ### Operations that are no commands (R94 a) -/

theorem exec_nonCommand {i : Instr} {st t : State} (hi : i.isCommand = false) (h : exec i st = .next t) :
    t = { st with key := t.key, iv := t.iv, klen := t.klen, vlen := t.vlen, rdata := t.rdata } := by
  cases effect_of_exec h with
  | fails hf => exact absurd (hf.isCommand.symm.trans hi) Bool.false_ne_true.symm
  | initialises | opensCall | transforms => exact absurd hi Bool.false_ne_true.symm
  | _ => rfl

theorem runOps_nonCommands {is : List Instr} {st t : State} (his : ∀ i ∈ is, i.isCommand = false)
    (h : runOps is st = .next t) :
    t = { st with key := t.key, iv := t.iv, klen := t.klen, vlen := t.vlen, rdata := t.rdata } := by
  induction is generalizing st with
  | nil => obtain rfl := Host.Outcome.next.inj h; rfl
  | cons i is ih =>
    obtain ⟨hi, his⟩ := List.forall_mem_cons.1 his
    obtain ⟨u, hu⟩ := perform_answers_next i st
    rw [ih his ((runOps_cons hu).symm.trans h), exec_nonCommand hi hu]

/-- Without an instance each byte of a call returns what `DOUT` held before (R91, R134). -/
theorem bytesRead_continueOps_notReady (src : List Byte) {st : State} (hr : st.ready = false) :
    bytesRead (continueOps src) st = List.replicate src.length st.dout := by
  induction src generalizing st with
  | nil => rfl
  | cons b src ih =>
    have hxfer : perform (.xfer b) st = .next (failWith .notReady 0 { st with rdata := none }) :=
      execXfer_notReady b hr
    rw [continueOps_cons, bytesRead_cons_write rfl hxfer, bytesRead_cons_rdout]
    exact congrArg (List.cons st.dout) (ih hr)

/-- The bytes a call goes on to return depend on the cipher state, `READY` and `DOUT` only. -/
theorem bytesRead_continueOps_congr (src : List Byte) {st t : State} (hP : t.P = st.P) (hs : t.s = st.s)
    (hj : t.j = st.j) (hready : t.ready = st.ready) (hdout : t.dout = st.dout) :
    bytesRead (continueOps src) t = bytesRead (continueOps src) st := by
  cases hr : st.ready with
  | true =>
    rw [bytesRead_continueOps src hr, bytesRead_continueOps src (hready.trans hr), softOf, hP, hs, hj, softOf]
  | false =>
    rw [bytesRead_continueOps_notReady src hr, bytesRead_continueOps_notReady src (hready.trans hr), hdout]

/-- Settles O46: the operations leave everything the rest of the call depends on. -/
theorem nonCommandsDoNotDisturbACall : Obligations.NonCommandsDoNotDisturbACall := by
  intro is st src his
  obtain ⟨t, ht⟩ := runOps_answers_next is st
  refine ⟨t, ht, ?_⟩
  rw [runOps_nonCommands his ht]
  exact ⟨rfl, rfl, rfl, rfl, rfl, rfl, rfl, bytesRead_continueOps_congr src rfl rfl rfl rfl rfl⟩

/-! ### The transform is its own inverse (R95) -/

theorem callOutputs_start (cs : List (Option Byte)) {st : State} (hr : st.ready = true) :
    callOutputs (none :: cs) st = none :: callOutputs cs (openCall st) := by
  rw [callOutputs, exec_start hr]

theorem callOutputs_xfer (b : Byte) (cs : List (Option Byte)) {st : State} (hr : st.ready = true) :
    callOutputs (some b :: cs) st = some (transformByte b st).dout :: callOutputs cs (transformByte b st) := by
  rw [callOutputs, exec_xfer b hr]

/-- Settles O47: at each place the two engines are in one cipher state, so they use one keystream byte. -/
theorem decryptionMirrorsEncryption : Obligations.DecryptionMirrorsEncryption := by
  intro cs
  induction cs with
  | nil => intros; rfl
  | cons c cs ih =>
    intro st st' hr hr' hP hs hj
    have hgen : genStep st'.P st'.s st'.j = genStep st.P st.s st.j := by rw [hP, hs, hj]
    cases c with
    | none =>
      rw [callOutputs_start cs hr, callOutputs_start _ hr', ih (openCall st) (openCall st') hr hr' hP hs rfl]
    | some b =>
      have hdout : (transformByte (transformByte b st).dout st').dout = b := by
        simp only [transformByte, setResult_dout, emitByte_dout, hgen, xor_cancel_right]
      rw [callOutputs_xfer b cs hr, callOutputs_xfer _ _ hr', hdout,
        ih (transformByte b st) (transformByte (transformByte b st).dout st') hr hr' (congrArg GenResult.P hgen)
          (congrArg GenResult.s hgen) (congrArg GenResult.j hgen)]

/-- The source's loop, given its own outputs from the same instance and index, returns the data. -/
theorem softTransformFrom_involutive (c : SoftCipher) (j : Byte) (m : List Byte) :
    (softTransformFrom c j (softTransformFrom c j m).2).2 = m := by
  induction m generalizing c j with
  | nil => rfl
  | cons b m ih =>
    simp only [softTransformFrom, softGenStep, xor_cancel_right, List.cons.injEq, true_and]
    exact ih ..

theorem initializeOps_isWrite (key iv : List Byte) : ∀ i ∈ initializeOps key iv, i.isWrite = true := by
  simp only [initializeOps, loadKeyOps, loadIvOps, List.forall_mem_append, List.forall_mem_cons, List.forall_mem_map]
  simp [Instr.isWrite]

/-- A call after a legal `initialize(key, iv)` returns the source's bytes for that key and IV, whatever the engine did before
(R9, R94). -/
theorem bytesRead_initialize_transform {key iv : List Byte} (hk : LegalLength key.length) (hv : LegalLength iv.length)
    (m : List Byte) (st : State) :
    bytesRead (initializeOps key iv ++ transformOps m) st
      = (softTransform (softConstruct (cyclicByte key) (cyclicByte iv)) m).2 := by
  obtain ⟨t, hrun, hlegal, -, -⟩ := initializeImageIsSourceConstruction st key iv
    (Nat.le_trans hk.2 (by decide)) (Nat.le_trans hv.2 (by decide))
  obtain ⟨hP, hs, ht⟩ := hlegal hk hv
  have hr : t.ready = true := congrArg State.ready ht
  have hsoft : softOf t = softConstruct (cyclicByte key) (cyclicByte iv) := by
    rw [softOf, funext hP, hs]
  rw [bytesRead_append hrun, bytesRead_writes (initializeOps_isWrite key iv), List.nil_append,
    bytesRead_transformOps m hr, hsoft]

/-- Settles O49: both engines hold the source's instance for the key and the IV, and its transform is its own inverse. -/
theorem encryptThenDecryptReturnsMessage : Obligations.EncryptThenDecryptReturnsMessage := by
  intro st st' key iv m hk hv
  rw [bytesRead_initialize_transform hk hv, bytesRead_initialize_transform hk hv]
  exact softTransformFrom_involutive _ 0 m

/-! ### The keystream does not depend on the data (R96) -/

/-- `DOUT` and the data byte of an `XFER` show in `DOUT` and the byte returned only. -/
theorem exec_sameButData {i i' : Instr} (h : SameButData i i') (st : State) (d : Byte) :
    ∃ t d' r, exec i st = .next t ∧ exec i' { st with dout := d } = .next { t with dout := d', rdata := r } := by
  have hxfer (b b' : Byte) : ∃ t d' r, exec (.xfer b) st = .next t
      ∧ exec (.xfer b') { st with dout := d } = .next { t with dout := d', rdata := r } := by
    rcases Bool.eq_false_or_eq_true st.ready with hr | hr
    · exact ⟨_, _, st.rdata, exec_xfer b hr, exec_xfer b' hr⟩
    · exact ⟨_, d, st.rdata, execXfer_notReady b hr, execXfer_notReady b' hr⟩
  rcases h with rfl | ⟨b, b', rfl, rfl⟩
  · cases i with
    | init =>
      rcases execInit_cases st with ⟨hk, e⟩ | ⟨hk, hv, e⟩ | ⟨hk, hv, c, hc, e⟩
      · exact ⟨_, d, st.rdata, e, execInit_illegalKeyLength hk⟩
      · exact ⟨_, d, st.rdata, e, execInit_illegalIvLength hk hv⟩
      · obtain ⟨c', hc', e'⟩ := execInit_legalLengths (st := { st with dout := d }) hk hv
        obtain rfl : c' = c := hc'.trans hc.symm
        exact ⟨_, 0x00, st.rdata, e, e'⟩
    | start =>
      rcases Bool.eq_false_or_eq_true st.ready with hr | hr
      · exact ⟨_, d, st.rdata, exec_start hr, exec_start hr⟩
      · exact ⟨_, d, st.rdata, execStart_notReady hr, execStart_notReady hr⟩
    | xfer b => exact hxfer b b
    | _ => exact ⟨_, d, _, rfl, rfl⟩
  · exact hxfer b b'

theorem runOps_sameButData {is is' : List Instr} (h : List.Forall₂ SameButData is is') (st : State) (d : Byte)
    (r : Option Byte) :
    ∃ t d' r', runOps is st = .next t
      ∧ runOps is' { st with dout := d, rdata := r } = .next { t with dout := d', rdata := r' } := by
  induction h generalizing st d r with
  | nil => exact ⟨st, d, r, rfl, rfl⟩
  | cons hi _ ih =>
    obtain ⟨u, d', r', hu, hu'⟩ := exec_sameButData hi { st with rdata := none } d
    rw [runOps_cons (show perform _ st = _ from hu),
      runOps_cons (show perform _ { st with dout := d, rdata := r } = _ from hu')]
    exact ih u d' r'

/-- Data combined with its outputs is what the source's loop makes of as many zeros: the keystream itself. -/
theorem zipWith_xor_softTransformFrom (c : SoftCipher) (j : Byte) (src : List Byte) :
    List.zipWith (· ^^^ ·) src (softTransformFrom c j src).2
      = (softTransformFrom c j (List.replicate src.length 0#8)).2 := by
  induction src generalizing c j with
  | nil => rfl
  | cons b src ih =>
    simp only [List.length_cons, List.replicate_succ, softTransformFrom, softGenStep, List.zipWith_cons_cons,
      ← BitVec.xor_assoc, BitVec.xor_self, ih]

/-- Settles O48, operation by operation for the states, and by the keystream as the transform of zeros for the bytes. -/
theorem keystreamIndependentOfData : Obligations.KeystreamIndependentOfData := by
  constructor
  · intro is is' st h
    obtain ⟨t, d, r, ht, ht'⟩ := runOps_sameButData h st st.dout st.rdata
    exact ⟨t, _, ht, ht', rfl⟩
  · intro bs bs' st hr hlength
    rw [bytesRead_continueOps bs hr, bytesRead_continueOps bs' hr, zipWith_xor_softTransformFrom,
      zipWith_xor_softTransformFrom, hlength]

end Sys2Proof.Machine
end

section
/-! SUPPORT. Proofs about host register access (spec/42_host_register_access.md): the word of a read with any `D`, the status
view bit by bit, the three fall-backs, and a read as an operation that shows only in the byte last returned. -/

namespace Sys2Proof.Machine

open Sys2Proof.Safety

/-! ### A read anywhere in a sequence (R118) -/

/-- Given to the engine, a read returns a byte and leaves everything else as it was (R93, R110 to R115). -/
theorem perform_read {i : Instr} (hi : i.isWrite = false) (st : State) :
    ∃ v, perform i st = .next { st with rdata := some v } := by
  cases i with
  | rdstatus | rderr | rderrlen | rdklen | rdvlen | rdout | rdRaz => exact ⟨_, rfl⟩
  | _ => exact absurd hi.symm Bool.false_ne_true

/-- No response depends on the byte returned before the sequence. -/
theorem responses_rdata (is : List Instr) (st : State) (r : Option Byte) :
    responses is { st with rdata := r } = responses is st := by
  cases is <;> rfl

/-- Settles O32: the operations after the read run from the state the earlier ones left, but for the byte last returned. -/
theorem readsMayBeInsertedAnywhere : Obligations.ReadsMayBeInsertedAnywhere := by
  intro before after i st hi
  obtain ⟨u, hbefore⟩ := runOps_answers_next before st
  obtain ⟨v, hread⟩ := perform_read hi u
  obtain ⟨t', hafter⟩ := runOps_answers_next after u
  obtain ⟨r, hafter'⟩ := runOps_rdata hafter (some v)
  refine ⟨v, { t' with rdata := r }, t', ?responses, ?withRead, ?withoutRead, rfl⟩
  case responses =>
    rw [responses_append hbefore, responses_append hbefore, responses_cons hread,
      List.drop_left' (responses_length before st)]
    exact congrArg (responses before st ++ some v :: ·) (responses_rdata after u (some v))
  case withRead => rw [runOps_append hbefore, runOps_cons hread, hafter']
  case withoutRead => rw [runOps_append hbefore, hafter]

/-! ### Status, result and length reads (R110 to R114) -/

/-- The word of a read is that of its address, whatever its `D` (R51). -/
theorem decode_readWord_or_data (a d : Byte) :
    decode (0#1 ++ a ++ 0x00#8 ||| d.setWidth 17) = readOperation a := by
  rw [word_or_data, decode_read]

/-- The `STATUS` view bit by bit (R21). -/
theorem getLsbD_statusView (st : State) (n : Nat) :
    (statusView st).getLsbD n = if n = 0 then st.ready else if n = 1 then st.errcode != 0 else false := by
  rw [statusView, BitVec.getLsbD_append, BitVec.getLsbD_append]
  match n with
  | 0 => simp
  | 1 => simp
  | n + 2 => simp

/-- Settles O27: the byte returned is the status view. -/
theorem rdstatusReturnsStatusView : Obligations.RdstatusReturnsStatusView := by
  intro d st
  refine ⟨statusView st, decode_readWord_or_data 0x01 d, rfl, getLsbD_statusView st 0, ?error, fun n hn => ?rest⟩
  case error =>
    rw [getLsbD_statusView]
    exact bne_iff_ne
  case rest => rw [getLsbD_statusView, if_neg (by omega), if_neg (by omega)]

/-- Settles O28, each word by its address and each meaning by its rule. -/
theorem resultAndLengthReads : Obligations.ResultAndLengthReads :=
  fun d _ => ⟨decode_readWord_or_data 0x02 d, decode_readWord_or_data 0x03 d, decode_readWord_or_data 0x04 d,
    decode_readWord_or_data 0x05 d, rfl, rfl, rfl, rfl⟩

/-! ### The fall-backs (R115 to R117) -/

/-- Settles O29: no earlier row takes a read of such an address. -/
theorem readOfWriteOnlyOrReservedIsZero : Obligations.ReadOfWriteOnlyOrReservedIsZero := by
  refine fun a d st => ⟨fun ha => ?_, rfl⟩
  rw [decode_read, readOperation_zero (by simpa [razAddress, or_assoc] using ha)]

/-- Settles O30: no earlier row takes a write to such an address. -/
theorem writeToReadOnlyOrReservedIsIgnored : Obligations.WriteToReadOnlyOrReservedIsIgnored := by
  refine fun a d st => ⟨fun ha => ?_, rfl⟩
  rw [decode_write, writeOperation_ignored (by simpa [ignAddress, or_assoc] using ha)]

/-- Settles O31: the word is a write of `d` to `CMD`, and the meaning reports code 4 with length 0. -/
theorem reservedCommandFails : Obligations.ReservedCommandFails := by
  refine fun d st => ⟨fun hinit hstart => ?_, rfl⟩
  calc decode (0x10000#17 ||| d.setWidth 17)
    _ = decode (1#1 ++ 0x00#8 ++ d) := congrArg decode (word_or_data 1#1 0x00 d)
    _ = writeOperation 0x00 d := decode_write 0x00 d
    _ = .cmdRsvd d := writeOperation_reserved ((rsvdCommand_iff d).2 ⟨hinit, hstart⟩)

end Sys2Proof.Machine
end

section
/-! SUPPORT. Proofs about errors (spec/60_exceptions.md): what a command that meets an error leaves, which error it is, and an
engine without an instance under `START`, `XFER` and `RDOUT`. -/

namespace Sys2Proof.Machine

open Sys2Proof.Safety

/-! ### Errors and their codes (R130, R131) -/

/-- A command operation is a write: to `CMD` or to `DIN` (R19). -/
theorem isWrite_of_isCommand {i : Instr} (hi : i.isCommand = true) : i.isWrite = true := by
  cases i with
  | init | start | cmdRsvd | xfer => rfl
  | _ => contradiction

/-- Settles O33: a failing command only reports its error, and every other command reports code 0. -/
theorem failedCommandChangesOnlyResult : Obligations.FailedCommandChangesOnlyResult := by
  intro i st t hi h hcode
  cases effect_of_exec h with
  | fails hf => rfl
  | initialises | opensCall | transforms => exact absurd rfl hcode
  | returns _ hread => exact absurd ((isWrite_of_isCommand hi).symm.trans hread) Bool.false_ne_true.symm
  | ignores | setsKlen | setsVlen | loadsKey | loadsIv => contradiction

/-- Settles O34: each way to fail meets the condition of its own code only, and a success meets that of none. -/
theorem errorCausesAndCodes : Obligations.ErrorCausesAndCodes := by
  refine fun i st t h => ⟨fun hi => ?nonCommand, fun hi => ?command⟩
  case nonCommand =>
    rw [exec_nonCommand hi h]
    exact ⟨rfl, rfl⟩
  case command =>
    cases effect_of_exec h with
    | fails hf =>
      cases hf with
      | keyLength hk => simp [errNumber, hk]
      | ivLength hk hv => simpa [errNumber, hv] using hk
      | startNotReady hr => simp [errNumber, hr]
      | xferNotReady b hr => simp [errNumber, hr]
      | reservedCommand d => simp [errNumber]
    | initialises hk hv => simp [errNumber, hk, hv]
    | opensCall hr => simp [errNumber, hr]
    | transforms b hr => simp [errNumber, hr]
    | returns _ hread => exact absurd ((isWrite_of_isCommand hi).symm.trans hread) Bool.false_ne_true.symm
    | ignores | setsKlen | setsVlen | loadsKey | loadsIv => contradiction

/-! ### No instance, no byte (R97, R134) -/

/-- Given to an engine without an instance, `START` and `XFER` report `NOT_READY` and do nothing else. -/
theorem perform_notReady {i : Instr} (hi : i = .start ∨ ∃ b, i = .xfer b) {st : State} (hr : st.ready = false) :
    perform i st = .next (failWith .notReady 0 { st with rdata := none }) := by
  rcases hi with rfl | ⟨b, rfl⟩
  · exact execStart_notReady hr
  · exact execXfer_notReady b hr

/-- Settles O25, by induction on the sequence from its end: its last operation either fails with code 3 or, being `RDOUT`,
keeps the result the operations before it left. -/
theorem noBytesWithoutInstance : Obligations.NoBytesWithoutInstance := by
  intro is st hr his
  induction is using List.reverseRecOn with
  | nil => exact ⟨⟨st, rfl, rfl, fun ⟨_, hmem, _⟩ => absurd hmem List.not_mem_nil⟩, List.forall_mem_nil _⟩
  | append_singleton is i ih =>
    obtain ⟨his, hi⟩ := List.forall_mem_append.1 his
    obtain ⟨⟨u, hrun, hframe, hresult⟩, hbytes⟩ := ih his
    rw [bytesRead_append hrun, runOps_append hrun, List.forall_mem_append]
    by_cases hrdout : i = .rdout
    · subst hrdout
      refine ⟨⟨_, rfl, ?frame, ?result⟩, hbytes, ?byte⟩
      case frame =>
        rw [hframe]
        rfl
      case result => simpa using hresult
      case byte =>
        rw [bytesRead_cons_rdout, hframe]
        exact List.forall_mem_singleton.2 rfl
    · have hcommand : i = .start ∨ ∃ b, i = .xfer b := by simpa [hrdout] using hi
      have hready : u.ready = false := (congrArg State.ready hframe).trans hr
      have hfails := perform_notReady hcommand hready
      refine ⟨⟨_, runOps_cons hfails, ?frame, fun _ => ⟨rfl, rfl⟩⟩, hbytes, ?byte⟩
      case frame =>
        rw [hframe]
        rfl
      case byte =>
        have hwrite : i.isWrite = true := by rcases hcommand with rfl | ⟨b, rfl⟩ <;> rfl
        rw [bytesRead_cons_write hwrite hfails]
        exact List.forall_mem_nil _

end Sys2Proof.Machine
end

section
/-! SUPPORT. Proofs about reset and completion (spec/70_reset_and_hazards.md): a step on the hardware reset input, `INIT` on the
state it leaves, and every step as a completed one. -/

namespace Sys2Proof.Machine

open Sys2Proof.Safety

/-! ### Every step completes (R162) -/

/-- A hardware reset at the port is taken, whatever the state (R150). -/
theorem step_hardwareReset {st : State} {rest : List PortEvent} (h : st.pending = .hardwareReset :: rest) :
    step st = .next (hardwareReset rest) := by
  simp [step, h]

/-- Settles O10, by what is at the port: accepting an operation takes it off, and no meaning touches what is left. -/
theorem everyStepCompletes : Obligations.EveryStepCompletes := by
  intro st
  rcases hport : st.pending with _ | ⟨w | _, rest⟩
  · exact ⟨st, step_idle hport, hport⟩
  · obtain ⟨t, hexec, hpending⟩ := exec_answers_next (decode w) (acceptOperation rest st)
    exact ⟨t, (step_operation hport).trans hexec, hpending⟩
  · exact ⟨hardwareReset rest, step_hardwareReset hport, rfl⟩

/-! ### Reset, and `INIT` at once after it (R150, R151) -/

/-- Settles O8: the state left is the reset state with the later events, and the table and the buffers are given by what a read
of them gives. -/
theorem hardwareResetRestoresResetState : Obligations.HardwareResetRestoresResetState :=
  fun _ rest hport =>
    ⟨hardwareReset rest, step_hardwareReset hport, tableRead_identityTable, rfl, rfl, rfl,
      readAt_zeroBuffer, readAt_zeroBuffer, rfl, rfl, rfl, rfl, rfl, rfl⟩

/-- Settles O22: `KLEN` is 0 after reset, and 0 is no legal key length. -/
theorem initAtOnceAfterResetFails : Obligations.InitAtOnceAfterResetFails := by
  have hillegal : ¬ LegalLength State.reset.klen.toNat := by decide
  exact execInit_illegalKeyLength hillegal

end Sys2Proof.Machine
end
